-- ==== Sys2Proof/Word.lean ====
section
/-! DEFINITION. The words of the CHIP-8 core whose width no parameter of 00_scope.md R6 sets: a memory byte, an instruction word
(30_encoding.md R70) and its fields (R71). The registers' types, by the widths of R6, stand in Config.lean. -/

namespace Sys2Proof

/-- A memory byte (R50), and the NN field (R71). -/
abbrev Byte := BitVec 8

/-- An instruction word (R70). -/
abbrev Word := BitVec 16

/-- A 4-bit field of an instruction word: the class, X, Y or N (R71). -/
abbrev Nibble := BitVec 4

/-- The 12-bit address field NNN (R71). -/
abbrev Addr12 := BitVec 12

/-- The index of a general register, as the X and Y fields hold it (R21, R71). -/
abbrev Reg := BitVec 4

/-- The index of a key of the keypad (R31, R44). -/
abbrev KeyIx := BitVec 4

/-- VF, the register that is also the flag (R22). -/
abbrev Reg.vf : Reg := 0xF#4

/-- V0, the implicit operand of BNNN (R107). -/
abbrev Reg.v0 : Reg := 0x0#4

end Sys2Proof
end

