-- ==== Sys2Proof/Config.lean ====
section
/-! DEFINITION. The parameters of 00_scope.md R6 that fix the SHAPE of the state, each at the value R6 gives, the types of the
registers by their widths, the type of the address policy, and the free value of the random input. The parameters that only fix behaviour (`ADDR_POLICY`, `INSTR_RATE`,
`FONT`) stand in Machine/Params.lean, where a later repair may mend them. -/

namespace Sys2Proof.Config

/-- `MEM_SIZE`: bytes of RAM, addresses 0x000 to 0xFFF (R6, R50). -/
abbrev memSize : Nat := 4096

/-- `NUM_V`: general registers V0 to VF (R6, R21). -/
abbrev numV : Nat := 16

/-- `V_WIDTH`: bits of a general register (R6, R21). -/
abbrev vWidth : Nat := 8

/-- `I_WIDTH`: bits of the address register I (R6, R24). -/
abbrev iWidth : Nat := 16

/-- `PC_WIDTH`: bits of the program counter (R6, R25). -/
abbrev pcWidth : Nat := 16

/-- `STACK_ENTRY_WIDTH`: bits of a return-stack entry (R6, R26). -/
abbrev stackEntryWidth : Nat := 16

/-- `TIMER_WIDTH`: bits of each of DT and ST (R6, R28). -/
abbrev timerWidth : Nat := 8

/-- `STACK_DEPTH`: entries of the return stack (R6, R26). -/
abbrev stackDepth : Nat := 12

/-- `FONT_BASE`: first byte of the font (R6, R54). -/
abbrev fontBase : Nat := 0x000

/-- `FONT_GLYPHS`, `FONT_GLYPH_BYTES`: the font's layout (R6, R54). -/
abbrev fontGlyphs : Nat := 16
@[inherit_doc fontGlyphs] abbrev fontGlyphBytes : Nat := 5

/-- `PROG_BASE`: the load address and the reset pc (R6, R52). -/
abbrev progBase : Nat := 0x200

/-- `MAX_IMAGE`: the largest program image in bytes, 3584 (R6, R241). -/
abbrev maxImage : Nat := memSize - progBase

/-- `DISP_W`, `DISP_H`: the display buffer's size in cells (R6, R29). -/
abbrev dispW : Nat := 64
@[inherit_doc dispW] abbrev dispH : Nat := 32

/-- `NUM_KEYS`: keys of the keypad (R6, R31). -/
abbrev numKeys : Nat := 16

/-- `TICK_HZ`: timer ticks, and frames, per second (R6, R221). -/
abbrev tickHz : Nat := 60

/-- FREE VALUE. `rnd_in` (R228, R229): the byte the host supplies to the n-th CXNN of the run. R140: "a free input of each
CXNN step, any value 0x00–0xFF, under no law" (D13). It has no body, so nothing can be proved of it (log 3). Safe. -/
opaque rndIn : Nat → Byte

end Sys2Proof.Config

namespace Sys2Proof

/-- The value of a general register, `V_WIDTH` bits (R21). -/
abbrev VReg := BitVec Config.vWidth

/-- The value of I, `I_WIDTH` bits (R24). -/
abbrev IReg := BitVec Config.iWidth

/-- The value of the pc, `PC_WIDTH` bits (R25). -/
abbrev PcReg := BitVec Config.pcWidth

/-- A return-stack entry, `STACK_ENTRY_WIDTH` bits (R26). -/
abbrev StackEntry := BitVec Config.stackEntryWidth

/-- The value of a timer, `TIMER_WIDTH` bits (R28). -/
abbrev Timer := BitVec Config.timerWidth

/-- `ADDR_POLICY` (R6, R58): what an access at an address of 4096 or more does. -/
inductive AddrPolicy where
  /-- the byte at `addr mod 4096` is used and no fault is raised; this hardware's value -/
  | wrap
  /-- the access raises `AddressRange(addr)`; the alternative a model may select -/
  | fault
  deriving DecidableEq, Repr

end Sys2Proof
end

