-- ==== Sys2Proof/Syntax.lean ====
section
/-! DEFINITION. The instructions: one constructor per row of spec/opcode_table.json, 34 instructions and the default row
(30_encoding.md R80, R81). The operands are the fields the row's pattern names, of the field's own width (R71, R86). -/

namespace Sys2Proof

/-- One instruction of the core. The comment gives the row's pattern and its assembler spelling (R80, R84). -/
inductive Instr where
  /-- 00E0, `CLS` (R171) -/
  | cls
  /-- 00EE, `RET` (R100) -/
  | ret
  /-- 1NNN, `JP addr` (R101) -/
  | jp (nnn : Addr12)
  /-- 2NNN, `CALL addr` (R102) -/
  | call (nnn : Addr12)
  /-- 3XNN, `SE Vx, byte` (R103) -/
  | seImm (x : Reg) (nn : Byte)
  /-- 4XNN, `SNE Vx, byte` (R104) -/
  | sneImm (x : Reg) (nn : Byte)
  /-- 5XY0, `SE Vx, Vy` (R105) -/
  | seReg (x y : Reg)
  /-- 6XNN, `LD Vx, byte` (R121) -/
  | ldImm (x : Reg) (nn : Byte)
  /-- 7XNN, `ADD Vx, byte` (R122) -/
  | addImm (x : Reg) (nn : Byte)
  /-- 8XY0, `LD Vx, Vy` (R123) -/
  | ldReg (x y : Reg)
  /-- 8XY1, `OR Vx, Vy` (R124) -/
  | orReg (x y : Reg)
  /-- 8XY2, `AND Vx, Vy` (R125) -/
  | andReg (x y : Reg)
  /-- 8XY3, `XOR Vx, Vy` (R126) -/
  | xorReg (x y : Reg)
  /-- 8XY4, `ADD Vx, Vy` (R127) -/
  | addReg (x y : Reg)
  /-- 8XY5, `SUB Vx, Vy` (R128) -/
  | sub (x y : Reg)
  /-- 8XY6, `SHR Vx {, Vy}` (R129); Y is held, for R82 does not check it, and not read (D10) -/
  | shr (x y : Reg)
  /-- 8XY7, `SUBN Vx, Vy` (R130) -/
  | subn (x y : Reg)
  /-- 8XYE, `SHL Vx {, Vy}` (R131); Y is held and not read, as for `shr` -/
  | shl (x y : Reg)
  /-- 9XY0, `SNE Vx, Vy` (R106) -/
  | sneReg (x y : Reg)
  /-- ANNN, `LD I, addr` (R150) -/
  | ldI (nnn : Addr12)
  /-- BNNN, `JP V0, addr` (R107) -/
  | jpV0 (nnn : Addr12)
  /-- CXNN, `RND Vx, byte` (R140) -/
  | rnd (x : Reg) (nn : Byte)
  /-- DXYN, `DRW Vx, Vy, nibble` (R173) -/
  | drw (x y : Reg) (n : Nibble)
  /-- EX9E, `SKP Vx` (R185) -/
  | skp (x : Reg)
  /-- EXA1, `SKNP Vx` (R186) -/
  | sknp (x : Reg)
  /-- FX07, `LD Vx, DT` (R187) -/
  | ldVxDt (x : Reg)
  /-- FX0A, `LD Vx, K` (R188) -/
  | ldVxK (x : Reg)
  /-- FX15, `LD DT, Vx` (R189) -/
  | ldDtVx (x : Reg)
  /-- FX18, `LD ST, Vx` (R190) -/
  | ldStVx (x : Reg)
  /-- FX1E, `ADD I, Vx` (R151) -/
  | addI (x : Reg)
  /-- FX29, `LD F, Vx` (R152) -/
  | ldF (x : Reg)
  /-- FX33, `LD B, Vx` (R153) -/
  | ldB (x : Reg)
  /-- FX55, `LD [I], Vx` (R154) -/
  | ldMemVx (x : Reg)
  /-- FX65, `LD Vx, [I]` (R155) -/
  | ldVxMem (x : Reg)
  /-- the default row: a word that matches no other row, with the word itself (R81, R206) -/
  | unrecognized (word : Word)
  deriving DecidableEq, Repr

end Sys2Proof
end

