-- ==== Sys2Proof/WellFormed.lean ====
section
/-! DEFINITION. Which terms of `Instr` are instructions. The operands' widths hold by their types (R86: a value that does not
fit its field is not an instruction), so the one check left is that the default row holds a word of R81's list. -/

namespace Sys2Proof

/-- The unrecognized words, by R81's own list (written with numbers, apart from the decoder's fields). -/
def isUnrecognizedWord (w : Word) : Bool :=
  let cls := w.toNat / 4096
  let n := w.toNat % 16
  let nn := w.toNat % 256
  match cls with
  | 0x0 => w != 0x00E0#16 && w != 0x00EE#16
  | 0x5 => n != 0x0
  | 0x9 => n != 0x0
  | 0x8 => [0x8, 0x9, 0xA, 0xB, 0xC, 0xD, 0xF].contains n
  | 0xE => ! [0x9E, 0xA1].contains nn
  | 0xF => ! [0x07, 0x0A, 0x15, 0x18, 0x1E, 0x29, 0x33, 0x55, 0x65].contains nn
  | _ => false

/-- A term that stands for an instruction of the table (R80), the default row included (R81). -/
def Instr.wellFormed : Instr → Bool
  | .unrecognized w => isUnrecognizedWord w
  | .cls => true
  | .ret => true
  | .jp _ => true
  | .call _ => true
  | .seImm _ _ => true
  | .sneImm _ _ => true
  | .seReg _ _ => true
  | .ldImm _ _ => true
  | .addImm _ _ => true
  | .ldReg _ _ => true
  | .orReg _ _ => true
  | .andReg _ _ => true
  | .xorReg _ _ => true
  | .addReg _ _ => true
  | .sub _ _ => true
  | .shr _ _ => true
  | .subn _ _ => true
  | .shl _ _ => true
  | .sneReg _ _ => true
  | .ldI _ => true
  | .jpV0 _ => true
  | .rnd _ _ => true
  | .drw _ _ _ => true
  | .skp _ => true
  | .sknp _ => true
  | .ldVxDt _ => true
  | .ldVxK _ => true
  | .ldDtVx _ => true
  | .ldStVx _ => true
  | .addI _ => true
  | .ldF _ => true
  | .ldB _ => true
  | .ldMemVx _ => true
  | .ldVxMem _ => true

end Sys2Proof
end

