-- ==== Sys2Proof/Decode.lean ====
section
/-! DEFINITION. The decoder of 30_encoding.md R71 and R75 (class first, then the fixed sub-field), the encoder of R86, the
mask and match rows of R80, and the host's reading of a table word. -/

namespace Sys2Proof

/-! ## The fields of R71 -/

/-- `ins[15:12]`, the opcode class. -/
def fieldClass (w : Word) : Nibble := w.extractLsb' 12 4
/-- X = `ins[11:8]`. -/
def fieldX (w : Word) : Reg := w.extractLsb' 8 4
/-- Y = `ins[7:4]`. -/
def fieldY (w : Word) : Reg := w.extractLsb' 4 4
/-- N = `ins[3:0]`. -/
def fieldN (w : Word) : Nibble := w.extractLsb' 0 4
/-- NN = `ins[7:0]`. -/
def fieldNN (w : Word) : Byte := w.extractLsb' 0 8
/-- NNN = `ins[11:0]`. -/
def fieldNNN (w : Word) : Addr12 := w.extractLsb' 0 12

/-! ## The decoder -/

/-- Class 0 recognizes two whole words (R75, R76). -/
def decodeClass0 (w : Word) : Instr :=
  if w = 0x00E0#16 then .cls
  else if w = 0x00EE#16 then .ret
  else .unrecognized w

/-- Class 5: N must be 0 (R75). -/
def decodeClass5 (w : Word) : Instr :=
  if fieldN w = 0x0#4 then .seReg (fieldX w) (fieldY w) else .unrecognized w

/-- Class 8: N selects the operation (R77). -/
def decodeClass8 (w : Word) : Instr :=
  match (fieldN w).toNat with
  | 0x0 => .ldReg (fieldX w) (fieldY w)
  | 0x1 => .orReg (fieldX w) (fieldY w)
  | 0x2 => .andReg (fieldX w) (fieldY w)
  | 0x3 => .xorReg (fieldX w) (fieldY w)
  | 0x4 => .addReg (fieldX w) (fieldY w)
  | 0x5 => .sub (fieldX w) (fieldY w)
  | 0x6 => .shr (fieldX w) (fieldY w)
  | 0x7 => .subn (fieldX w) (fieldY w)
  | 0xE => .shl (fieldX w) (fieldY w)
  | _ => .unrecognized w

/-- Class 9: N must be 0 (R75). -/
def decodeClass9 (w : Word) : Instr :=
  if fieldN w = 0x0#4 then .sneReg (fieldX w) (fieldY w) else .unrecognized w

/-- Class E: NN selects (R75). -/
def decodeClassE (w : Word) : Instr :=
  if fieldNN w = 0x9E#8 then .skp (fieldX w)
  else if fieldNN w = 0xA1#8 then .sknp (fieldX w)
  else .unrecognized w

/-- Class F: NN selects (R75). -/
def decodeClassF (w : Word) : Instr :=
  if fieldNN w = 0x07#8 then .ldVxDt (fieldX w)
  else if fieldNN w = 0x0A#8 then .ldVxK (fieldX w)
  else if fieldNN w = 0x15#8 then .ldDtVx (fieldX w)
  else if fieldNN w = 0x18#8 then .ldStVx (fieldX w)
  else if fieldNN w = 0x1E#8 then .addI (fieldX w)
  else if fieldNN w = 0x29#8 then .ldF (fieldX w)
  else if fieldNN w = 0x33#8 then .ldB (fieldX w)
  else if fieldNN w = 0x55#8 then .ldMemVx (fieldX w)
  else if fieldNN w = 0x65#8 then .ldVxMem (fieldX w)
  else .unrecognized w

/-- `Decode(ins)` of R87: total on all words, reading nothing but the word. A word of R81 is rejected by name: it decodes to
the default row, which holds it. -/
def decode (w : Word) : Instr :=
  match (fieldClass w).toNat with
  | 0x0 => decodeClass0 w
  | 0x1 => .jp (fieldNNN w)
  | 0x2 => .call (fieldNNN w)
  | 0x3 => .seImm (fieldX w) (fieldNN w)
  | 0x4 => .sneImm (fieldX w) (fieldNN w)
  | 0x5 => decodeClass5 w
  | 0x6 => .ldImm (fieldX w) (fieldNN w)
  | 0x7 => .addImm (fieldX w) (fieldNN w)
  | 0x8 => decodeClass8 w
  | 0x9 => decodeClass9 w
  | 0xA => .ldI (fieldNNN w)
  | 0xB => .jpV0 (fieldNNN w)
  | 0xC => .rnd (fieldX w) (fieldNN w)
  | 0xD => .drw (fieldX w) (fieldY w) (fieldN w)
  | 0xE => decodeClassE w
  | _ => decodeClassF w

/-- The word of two bytes as the hardware stores them, the high byte first (R57, R72). -/
def wordOfBytes (hi lo : Byte) : Word := hi ++ lo

/-- The byte stored first: `ins[15:8]` (R57). -/
def highByte (w : Word) : Byte := w.extractLsb' 8 8

/-- The byte stored second: `ins[7:0]` (R57). -/
def lowByte (w : Word) : Byte := w.extractLsb' 0 8

/-- Why a byte sequence holds no instruction. -/
inductive DecodeError where
  /-- fewer than the two bytes of every instruction (R70) -/
  | tooFewBytes
  deriving DecidableEq, Repr

/-- The instruction at the head of a byte sequence, with the bytes after it; total on any bytes (R57, R70, R87). -/
def decodeBytes : List Byte → Except DecodeError (Instr × List Byte)
  | hi :: lo :: rest => .ok (decode (wordOfBytes hi lo), rest)
  | _ => .error .tooFewBytes

/-! ## The encoder -/

/-- The word of a class and an NNN field (R71). -/
def packNNN (c : Nibble) (nnn : Addr12) : Word := c ++ nnn
/-- The word of a class, an X field and an NN field (R71). -/
def packXNN (c : Nibble) (x : Reg) (nn : Byte) : Word := c ++ (x ++ nn)
/-- The word of a class and the X, Y and N fields (R71). -/
def packXYN (c : Nibble) (x y : Reg) (n : Nibble) : Word := c ++ (x ++ (y ++ n))

/-- The word of an instruction: the fixed digits of its row's pattern with its operands in their fields (R80, R86). -/
def encode : Instr → Word
  | .cls => 0x00E0#16
  | .ret => 0x00EE#16
  | .jp nnn => packNNN 0x1#4 nnn
  | .call nnn => packNNN 0x2#4 nnn
  | .seImm x nn => packXNN 0x3#4 x nn
  | .sneImm x nn => packXNN 0x4#4 x nn
  | .seReg x y => packXYN 0x5#4 x y 0x0#4
  | .ldImm x nn => packXNN 0x6#4 x nn
  | .addImm x nn => packXNN 0x7#4 x nn
  | .ldReg x y => packXYN 0x8#4 x y 0x0#4
  | .orReg x y => packXYN 0x8#4 x y 0x1#4
  | .andReg x y => packXYN 0x8#4 x y 0x2#4
  | .xorReg x y => packXYN 0x8#4 x y 0x3#4
  | .addReg x y => packXYN 0x8#4 x y 0x4#4
  | .sub x y => packXYN 0x8#4 x y 0x5#4
  | .shr x y => packXYN 0x8#4 x y 0x6#4
  | .subn x y => packXYN 0x8#4 x y 0x7#4
  | .shl x y => packXYN 0x8#4 x y 0xE#4
  | .sneReg x y => packXYN 0x9#4 x y 0x0#4
  | .ldI nnn => packNNN 0xA#4 nnn
  | .jpV0 nnn => packNNN 0xB#4 nnn
  | .rnd x nn => packXNN 0xC#4 x nn
  | .drw x y n => packXYN 0xD#4 x y n
  | .skp x => packXNN 0xE#4 x 0x9E#8
  | .sknp x => packXNN 0xE#4 x 0xA1#8
  | .ldVxDt x => packXNN 0xF#4 x 0x07#8
  | .ldVxK x => packXNN 0xF#4 x 0x0A#8
  | .ldDtVx x => packXNN 0xF#4 x 0x15#8
  | .ldStVx x => packXNN 0xF#4 x 0x18#8
  | .addI x => packXNN 0xF#4 x 0x1E#8
  | .ldF x => packXNN 0xF#4 x 0x29#8
  | .ldB x => packXNN 0xF#4 x 0x33#8
  | .ldMemVx x => packXNN 0xF#4 x 0x55#8
  | .ldVxMem x => packXNN 0xF#4 x 0x65#8
  | .unrecognized w => w

/-- The two bytes of an instruction in the order the hardware stores them (R57). -/
def encodeBytes (i : Instr) : List Byte := [highByte (encode i), lowByte (encode i)]

/-! ## The mask and match rows of R80 -/

/-- One row of the opcode table: a word matches it when `ins & mask = pat` (R80's `match` column is `pat` here). -/
structure OpRow where
  mask : Word
  pat : Word
  deriving DecidableEq, Repr

/-- Does the word match the row (R80)? -/
def OpRow.matches (r : OpRow) (w : Word) : Bool := w &&& r.mask == r.pat

/-- The row of R80 that an instruction is an instance of; the default row's mask and pattern are 0, as
opcode_table.json has them, and it is no member of `opcodeTable`. -/
def Instr.row : Instr → OpRow
  | .cls => ⟨0xFFFF#16, 0x00E0#16⟩
  | .ret => ⟨0xFFFF#16, 0x00EE#16⟩
  | .jp _ => ⟨0xF000#16, 0x1000#16⟩
  | .call _ => ⟨0xF000#16, 0x2000#16⟩
  | .seImm _ _ => ⟨0xF000#16, 0x3000#16⟩
  | .sneImm _ _ => ⟨0xF000#16, 0x4000#16⟩
  | .seReg _ _ => ⟨0xF00F#16, 0x5000#16⟩
  | .ldImm _ _ => ⟨0xF000#16, 0x6000#16⟩
  | .addImm _ _ => ⟨0xF000#16, 0x7000#16⟩
  | .ldReg _ _ => ⟨0xF00F#16, 0x8000#16⟩
  | .orReg _ _ => ⟨0xF00F#16, 0x8001#16⟩
  | .andReg _ _ => ⟨0xF00F#16, 0x8002#16⟩
  | .xorReg _ _ => ⟨0xF00F#16, 0x8003#16⟩
  | .addReg _ _ => ⟨0xF00F#16, 0x8004#16⟩
  | .sub _ _ => ⟨0xF00F#16, 0x8005#16⟩
  | .shr _ _ => ⟨0xF00F#16, 0x8006#16⟩
  | .subn _ _ => ⟨0xF00F#16, 0x8007#16⟩
  | .shl _ _ => ⟨0xF00F#16, 0x800E#16⟩
  | .sneReg _ _ => ⟨0xF00F#16, 0x9000#16⟩
  | .ldI _ => ⟨0xF000#16, 0xA000#16⟩
  | .jpV0 _ => ⟨0xF000#16, 0xB000#16⟩
  | .rnd _ _ => ⟨0xF000#16, 0xC000#16⟩
  | .drw _ _ _ => ⟨0xF000#16, 0xD000#16⟩
  | .skp _ => ⟨0xF0FF#16, 0xE09E#16⟩
  | .sknp _ => ⟨0xF0FF#16, 0xE0A1#16⟩
  | .ldVxDt _ => ⟨0xF0FF#16, 0xF007#16⟩
  | .ldVxK _ => ⟨0xF0FF#16, 0xF00A#16⟩
  | .ldDtVx _ => ⟨0xF0FF#16, 0xF015#16⟩
  | .ldStVx _ => ⟨0xF0FF#16, 0xF018#16⟩
  | .addI _ => ⟨0xF0FF#16, 0xF01E#16⟩
  | .ldF _ => ⟨0xF0FF#16, 0xF029#16⟩
  | .ldB _ => ⟨0xF0FF#16, 0xF033#16⟩
  | .ldMemVx _ => ⟨0xF0FF#16, 0xF055#16⟩
  | .ldVxMem _ => ⟨0xF0FF#16, 0xF065#16⟩
  | .unrecognized _ => ⟨0x0000#16, 0x0000#16⟩

/-- The 34 rows of R80, in the table's order: those of one instruction of each kind. -/
def opcodeTable : List OpRow :=
  ([.cls, .ret, .jp 0, .call 0, .seImm 0 0, .sneImm 0 0, .seReg 0 0, .ldImm 0 0, .addImm 0 0, .ldReg 0 0, .orReg 0 0,
    .andReg 0 0, .xorReg 0 0, .addReg 0 0, .sub 0 0, .shr 0 0, .subn 0 0, .shl 0 0, .sneReg 0 0, .ldI 0, .jpV0 0,
    .rnd 0 0, .drw 0 0 0, .skp 0, .sknp 0, .ldVxDt 0, .ldVxK 0, .ldDtVx 0, .ldStVx 0, .addI 0, .ldF 0, .ldB 0,
    .ldMemVx 0, .ldVxMem 0] : List Instr).map Instr.row

/-! ## The host's table words -/

/-- A table word as this hardware's instruction word: every instruction is one 16-bit word (R70), the bits above `nbits`
are 0. -/
def tableWord (nbits w : Nat) : Word := BitVec.ofNat 16 (w % 2 ^ nbits)

/-- The instruction the decoder reads from a table word, laid out as the hardware stores it, the high byte first (R57). -/
def decodeTableWord (nbits w : Nat) : Option Instr :=
  match decodeBytes [highByte (tableWord nbits w), lowByte (tableWord nbits w)] with
  | .ok (i, _) => some i
  | .error _ => none

end Sys2Proof
end

