-- ==== Sys2Proof/Machine/Params.lean ====
section
/-! DEFINITION. The parameters of 00_scope.md R6 that fix behaviour and not the shape of the state. They stand in this folder so
that a corrected value changes one definition (R7). -/

namespace Sys2Proof.Machine

/-- `ADDR_POLICY`, at the value of this hardware (R6, R58, D3; log 5). -/
def addrPolicy : AddrPolicy := .wrap

/-- `INSTR_RATE`: instructions per second, the default configuration (R6, R246). -/
def instrRate : Nat := 700

/-- `STEPS_PER_FRAME = floor(INSTR_RATE / 60)`: 11 at the default rate (R246, D28; log 7). -/
def stepsPerFrame : Nat := instrRate / Config.tickHz

/-- `FONT`: the glyph bytes of R55, five a digit from the top row down, digit 0 first (R54). R55 and D26 say that the bytes are
from general knowledge, not from the source: PRESUMED, log 8. -/
def font : List Byte :=
  [0xF0#8, 0x90#8, 0x90#8, 0x90#8, 0xF0#8] ++ -- 0
  [0x20#8, 0x60#8, 0x20#8, 0x20#8, 0x70#8] ++ -- 1
  [0xF0#8, 0x10#8, 0xF0#8, 0x80#8, 0xF0#8] ++ -- 2
  [0xF0#8, 0x10#8, 0xF0#8, 0x10#8, 0xF0#8] ++ -- 3
  [0x90#8, 0x90#8, 0xF0#8, 0x10#8, 0x10#8] ++ -- 4
  [0xF0#8, 0x80#8, 0xF0#8, 0x10#8, 0xF0#8] ++ -- 5
  [0xF0#8, 0x80#8, 0xF0#8, 0x90#8, 0xF0#8] ++ -- 6
  [0xF0#8, 0x10#8, 0x20#8, 0x40#8, 0x40#8] ++ -- 7
  [0xF0#8, 0x90#8, 0xF0#8, 0x90#8, 0xF0#8] ++ -- 8
  [0xF0#8, 0x90#8, 0xF0#8, 0x10#8, 0xF0#8] ++ -- 9
  [0xF0#8, 0x90#8, 0xF0#8, 0x90#8, 0x90#8] ++ -- A
  [0xE0#8, 0x90#8, 0xE0#8, 0x90#8, 0xE0#8] ++ -- B
  [0xF0#8, 0x80#8, 0x80#8, 0x80#8, 0xF0#8] ++ -- C
  [0xE0#8, 0x90#8, 0x90#8, 0x90#8, 0xE0#8] ++ -- D
  [0xF0#8, 0x80#8, 0xF0#8, 0x80#8, 0xF0#8] ++ -- E
  [0xF0#8, 0x80#8, 0xF0#8, 0x80#8, 0x80#8]    -- F

end Sys2Proof.Machine
end

