-- ==== Sys2Proof/Machine/State.lean ====
section
/-! DEFINITION. The machine's state as plain data: every piece of 10_state.md R20, and three fields of the model's own (the
driver's place in the frame, the host's coming inputs, the count of random bytes taken); the reasons a step can stop; reset. -/

namespace Sys2Proof.Machine

/-- `run_state` (R40, R215). -/
inductive RunState where
  /-- steps and ticks happen (R217) -/
  | running
  /-- frozen, no step and no tick (R218) -/
  | paused
  /-- terminal (R219) -/
  | halted
  deriving DecidableEq, Repr

/-- `halt_reason` (R42, R200). -/
inductive HaltReason where
  /-- the core has not halted -/
  | none
  /-- 2NNN with a full stack (R202) -/
  | stackOverflow
  /-- 00EE with an empty stack (R203) -/
  | stackUnderflow
  /-- an access at `addr ≥ 4096` under the policy `fault`; the address is the one R204 says is recorded (log 9) -/
  | addressRange (addr : Nat)
  /-- the host's quit request (R216) -/
  | quit
  deriving DecidableEq, Repr

/-- `kw_state`, the key-wait machine of FX0A (R43). -/
inductive KwState where
  | awaitingPress
  | awaitingRelease
  deriving DecidableEq, Repr

/-- One press or release event of the input collaborator (R225). -/
structure KeyEvent where
  key : KeyIx
  down : Bool
  deriving DecidableEq, Repr

/-- `run_req` of R229: the run-state request a poll delivers (R216). -/
inductive RunReq where
  | none
  | pause
  | resume
  | quit
  deriving DecidableEq, Repr

/-- What the host delivers at one input poll: the frame's key events in the order they arrived (R225), and its run-state
request (R216). -/
structure FrameInput where
  keys : List KeyEvent
  req : RunReq
  deriving DecidableEq, Repr

/-- Where the driver stands in the frame of R245 (the model's own, log 1). -/
inductive Phase where
  /-- a STEP is due, and `more` further STEPs follow it in this frame -/
  | instr (more : Nat)
  /-- the frame's steps are done and its TICK is due -/
  | tick
  /-- the tick is done; the composite and the input poll are due -/
  | poll
  deriving DecidableEq, Repr

/-- The place in the frame when `n` of its steps are still to come. -/
def Phase.remaining : Nat → Phase
  | 0 => .tick
  | n + 1 => .instr n

/-- `mem` (R50): the bytes that differ from the reset content, by strictly rising address. -/
abbrev Memory := List Host.Cell

/-- `disp` (R29): 32 rows of 64 cells; cell (x, y) is entry x of row y. -/
abbrev Display := Vector (Vector Bool Config.dispW) Config.dispH

/-- The state of the block (R20), then the model's own three fields. -/
structure State where
  /-- `mem[0..4095]` (R50) -/
  mem : Memory
  /-- `x[0]..x[15]`, V0 to VF (R21) -/
  regs : Vector VReg Config.numV
  /-- the address register (R24) -/
  I : IReg
  /-- the program counter (R25) -/
  pc : PcReg
  /-- the return stack (R26) -/
  stack : Vector StackEntry Config.stackDepth
  /-- the count of stack entries in use, 0 to 12 (R27) -/
  sp : Fin (Config.stackDepth + 1)
  /-- the delay timer (R28) -/
  dt : Timer
  /-- the sound timer (R28) -/
  st : Timer
  /-- the display buffer (R29) -/
  disp : Display
  /-- the keypad, true for a key that is down (R31) -/
  key : Vector Bool Config.numKeys
  /-- the run state (R40) -/
  runState : RunState
  /-- why the core halted (R42) -/
  haltReason : HaltReason
  /-- the state of FX0A's key wait (R43) -/
  kwState : KwState
  /-- the key FX0A captured (R44) -/
  kwKey : KeyIx
  /-- the model's own: the driver's place in the frame (R245, log 1) -/
  phase : Phase
  /-- the model's own: the host's inputs of the coming polls, the next one first; an empty list is a host that sends nothing
  (R216, R225, log 2) -/
  inputs : List FrameInput
  /-- the model's own: how many random bytes CXNN has taken (R140, log 3) -/
  draws : Nat
  deriving DecidableEq, Repr

/-- Why the machine stops with a fault. -/
inductive Fault where
  /-- `step` on a machine that is HALTED with no frame under way: "no step and no tick takes place" (R219), a run goes on "until
  HALTED" (R245), 93_implementation_defined.md U11 "`stuck` for good". Raised by the driver (`blockStep`), by no instruction.
  Safe: a run ends there. -/
  | halted
  deriving DecidableEq, Repr

/-- Why the model answers nothing. -/
inductive Refusal where
  /-- an instruction of the opcode table that has no meaning yet; raised by an arm of `exec` only. Safe. No arm raises it. -/
  | notModelled (mnemonic : String)
  /-- `CONSTRUCT` of an image of more than 3584 bytes: "construction is refused and no machine exists" (R241). Raised by
  `construct`. Safe: no run begins. -/
  | imageTooLarge
  deriving DecidableEq, Repr

/-- The machine after `CONSTRUCT` of the empty image: every value of R47 (log 4 for those of D25). The memory lists nothing, for
an unlisted address reads as the reset content (`resetByte`: the font, then zeros). The first frame begins at once (R248). -/
def State.reset : State where
  mem := []
  regs := Vector.replicate Config.numV 0#Config.vWidth
  I := 0#Config.iWidth
  pc := BitVec.ofNat Config.pcWidth Config.progBase
  stack := Vector.replicate Config.stackDepth 0#Config.stackEntryWidth
  sp := 0
  dt := 0#Config.timerWidth
  st := 0#Config.timerWidth
  disp := Vector.replicate Config.dispH (Vector.replicate Config.dispW false)
  key := Vector.replicate Config.numKeys false
  runState := .running
  haltReason := .none
  kwState := .awaitingPress
  kwKey := 0x0#4
  phase := Phase.remaining stepsPerFrame
  inputs := []
  draws := 0

end Sys2Proof.Machine
end

