-- ==== Sys2Proof/Machine/Memory.lean ====
section
/-! DEFINITION. The 4096 bytes of 20_memory.md as a list of cells in one canonical form, their reset content, and the address
policy of R58. -/

namespace Sys2Proof.Machine

/-- What byte `a` of memory holds at reset, and so what an unlisted address reads as: the font from `FONT_BASE` on, then 0x00
(R47, R52). -/
def resetByte (a : Nat) : Byte := if Config.fontBase ≤ a then (font[a - Config.fontBase]?).getD 0x00#8 else 0x00#8

namespace Memory

/-- The listed value of an address, if it is listed. -/
def lookup : Memory → Nat → Option Byte
  | [], _ => none
  | (a, b) :: m, k => if a = k then some b else lookup m k

/-- The byte at an address below `MEM_SIZE`. -/
def read (m : Memory) (k : Nat) : Byte := (lookup m k).getD (resetByte k)

/-- The byte `b` put before the cells of `m`, or nothing put where `b` is the reset content of `k`. -/
def put (m : Memory) (k : Nat) (b : Byte) : Memory := if b = resetByte k then m else (k, b) :: m

/-- The memory with byte `k` set to `b`, again in the canonical form. -/
def write : Memory → Nat → Byte → Memory
  | [], k, b => put [] k b
  | (a, c) :: m, k, b =>
    if k < a then put ((a, c) :: m) k b
    else if k = a then put m k b
    else (a, c) :: write m k b

/-- Every listed address is above `lo`, the addresses rise strictly, no cell holds its reset content, and all lie in the
address space. -/
def wfFrom : Nat → Memory → Bool
  | _, [] => true
  | lo, (a, b) :: m => decide (lo ≤ a) && decide (a < Config.memSize) && (b != resetByte a) && wfFrom (a + 1) m

/-- The canonical form: equal memories are equal lists. -/
def wf (m : Memory) : Bool := wfFrom 0 m

end Memory

/-! ## Addresses (R58)

An address is a value of the pc or of I, so it has the width of either. -/

/-- The cell an accepted address reaches: `addr mod 4096` (R58). Under the policy `fault` an accepted address is below 4096, so
it is the address itself. -/
def cellIndex {w : Nat} (a : BitVec w) : Nat := a.toNat % Config.memSize

/-- Does an access at this address raise AddressRange (R58, R204)? -/
def outOfRange {w : Nat} : AddrPolicy → BitVec w → Bool
  | .wrap, _ => false
  | .fault, a => decide (Config.memSize ≤ a.toNat)

/-- The first offending address of a sequence of accesses, in access order (R204). -/
def firstOutOfRange {w : Nat} (p : AddrPolicy) (as : List (BitVec w)) : Option (BitVec w) := as.find? (outOfRange p)

end Sys2Proof.Machine
end

