-- ==== Sys2Proof/Machine/Ops.lean ====
section
/-! DEFINITION. The named operations over the state: registers, memory bytes, the pc, the stack, the display, and the one
operation for a fatal condition (60_exceptions.md R201). There is no return from it (R208). -/

namespace Sys2Proof.Machine

/-! ## Values of one width used at another -/

/-- `zext_N(v)` (R11): the value at the width `n`, zero-extended, or cut to its low `n` bits where `n` is the smaller. Every move
between registers, fields and memory bytes of different parameters of R6 goes through it. -/
def zext {m : Nat} (n : Nat) (v : BitVec m) : BitVec n := v.setWidth n

/-- What a transition of the machine answers. -/
abbrev Result := Host.Outcome State Fault Refusal

namespace State

/-! ## Registers (R21, R24, R25) -/

/-- `x[r]`. -/
def V (s : State) (r : Reg) : VReg := s.regs[r.toNat]'r.isLt

/-- `x[r] <- b`. -/
def setV (s : State) (r : Reg) (b : VReg) : State := { s with regs := s.regs.set r.toNat b r.isLt }

/-- `I <- w`. -/
def setI (s : State) (w : IReg) : State := { s with I := w }

/-- `pc <- w`. -/
def setPc (s : State) (w : PcReg) : State := { s with pc := w }

/-- The default advance of a step (R72), and the further 2 of a taken skip; modulo 2^`PC_WIDTH` (R25). -/
def advance (s : State) : State := s.setPc (s.pc + 2#Config.pcWidth)

/-- FX0A's rewind, `pc <- (pc - 2) mod 2^16` (R188). -/
def rewind (s : State) : State := s.setPc (s.pc - 2#Config.pcWidth)

/-- `if c then pc <- (pc + 2) mod 2^16`, the skips' one action (R103 to R106, R185, R186). -/
def skipIf (c : Bool) (s : State) : State := if c then s.advance else s

/-! ## Memory (R58, R60) -/

/-- `MemRead(a, 1)` of an address the policy accepts. -/
def byteAt {w : Nat} (s : State) (a : BitVec w) : Byte := s.mem.read (cellIndex a)

/-- `MemWrite(a, 1, b)` at an address the policy accepts. -/
def setByte {w : Nat} (s : State) (a : BitVec w) (b : Byte) : State := { s with mem := s.mem.write (cellIndex a) b }

/-! ## The fatal conditions (R201) -/

/-- TAKING A FATAL CONDITION, the core's only exception: `run_state <- HALTED` and `halt_reason <- code`; everything else, the pc
included, keeps the value it has at the raise. -/
def halt (r : HaltReason) (s : State) : State := { s with runState := .halted, haltReason := r }

/-- All addresses of an instruction are checked before its first effect (D16, D17, R204); the first offending one halts the
core, else the instruction goes on. -/
def guarded {w : Nat} (p : AddrPolicy) (as : List (BitVec w)) (s : State) (go : State → Result) : Result :=
  match firstOutOfRange p as with
  | some a => .next (s.halt (.addressRange a.toNat))
  | none => go s

/-! ## The return stack (R26, R27) -/

/-- A push of `ret`: `stack[sp] <- ret; sp <- sp + 1`, or nothing where the stack is full (R102). -/
def push (s : State) (ret : StackEntry) : Option State :=
  if h : s.sp.val < Config.stackDepth then
    some { s with stack := s.stack.set s.sp.val ret h, sp := ⟨s.sp.val + 1, Nat.succ_lt_succ h⟩ }
  else none

/-- A pop: `sp <- sp - 1`, and the entry then at `stack[sp]`, which keeps its value; nothing where the stack is empty (R100). -/
def pop (s : State) : Option (StackEntry × State) :=
  if h : 0 < s.sp.val then
    some (s.stack[s.sp.val - 1]'(by have := s.sp.isLt; omega),
      { s with sp := ⟨s.sp.val - 1, by have := s.sp.isLt; omega⟩ })
  else none

/-! ## Timers (R28) -/

/-- `dt <- b`. -/
def setDt (s : State) (b : Timer) : State := { s with dt := b }

/-- `st <- b`. -/
def setSt (s : State) (b : Timer) : State := { s with st := b }

/-! ## Display (R29) -/

/-- `disp <- d`. -/
def setDisp (s : State) (d : Display) : State := { s with disp := d }

/-! ## Keypad and key wait (R31, R43, R44) -/

/-- `key[k]`. -/
def keyDown (s : State) (k : KeyIx) : Bool := s.key[k.toNat]'k.isLt

/-- `key[k] <- b`, the input collaborator's write (R225). -/
def setKey (s : State) (k : KeyIx) (b : Bool) : State := { s with key := s.key.set k.toNat b k.isLt }

/-- `kw_state <- w`. -/
def setKwState (s : State) (w : KwState) : State := { s with kwState := w }

/-- `kw_key <- k`. -/
def setKwKey (s : State) (k : KeyIx) : State := { s with kwKey := k }

/-! ## The model's own fields -/

/-- The driver's place in the frame becomes `ph` (log 1). -/
def setPhase (s : State) (ph : Phase) : State := { s with phase := ph }

/-- The host's coming inputs become `l` (log 2). -/
def setInputs (s : State) (l : List FrameInput) : State := { s with inputs := l }

/-- One more random byte has been taken (log 3). -/
def countDraw (s : State) : State := { s with draws := s.draws + 1 }

end State

/-! ## Display cells (R29, R174) -/

namespace Display

/-- `disp[y][x]`; a place outside the display has no cell and reads as off. -/
def cell (d : Display) (x y : Nat) : Bool :=
  if h : x < Config.dispW ∧ y < Config.dispH then (d[y]'h.2)[x]'h.1 else false

/-- `disp[y][x] <- not disp[y][x]`; a place outside the display changes nothing (R174). -/
def flip (d : Display) (x y : Nat) : Display :=
  if h : x < Config.dispW ∧ y < Config.dispH then
    d.set y ((d[y]'h.2).set x (!((d[y]'h.2)[x]'h.1)) h.1) h.2
  else d

/-- All cells off. -/
def clear : Display := Vector.replicate Config.dispH (Vector.replicate Config.dispW false)

end Display

end Sys2Proof.Machine
end

