-- ==== Sys2Proof/Machine/Operands.lean ====
section
/-! DEFINITION. The operand forms of 30_encoding.md R73 and R74: what a field of the word stands for when it is not simply a
register or an 8-bit immediate. -/

namespace Sys2Proof.Machine

/-- The effective address of byte `k` of a block at I: `(I + k) mod 2^16` (R156). -/
def effAddr (base : IReg) (k : Nat) : IReg := base + BitVec.ofNat Config.iWidth k

/-- The addresses of a block of `n` bytes at I, in access order (R60, R156). -/
def blockAddrs (base : IReg) (n : Nat) : List IReg := (List.range n).map (effAddr base)

/-- The registers V0 to VX, in order (R154, R155). -/
def regsUpTo (x : Reg) : List Reg := (List.range (x.toNat + 1)).map (BitVec.ofNat 4)

/-- The key a register selects: `VX mod 16` (R185, D18). -/
def keyOf (b : VReg) : KeyIx := zext 4 b

/-- A key's code as a register's value (R188). -/
def keyCode (k : KeyIx) : VReg := zext Config.vWidth k

/-- The address of a digit's glyph, `5 * zext_16(VX)` (R54, R152). -/
def glyphAddr (b : VReg) : IReg := BitVec.ofNat Config.iWidth (Config.fontGlyphBytes * b.toNat)

/-- The decimal digits of a byte, the hundreds first (R153). -/
def bcdDigits (b : VReg) : List Byte :=
  [BitVec.ofNat 8 (b.toNat / 100), BitVec.ofNat 8 (b.toNat / 10 % 10), BitVec.ofNat 8 (b.toNat % 10)]

/-- The start coordinates of a draw, wrapped once (R172). -/
def anchorX (b : VReg) : Nat := b.toNat % Config.dispW
@[inherit_doc anchorX] def anchorY (b : VReg) : Nat := b.toNat % Config.dispH

/-- Pixel `b` of a sprite row from the left, bit `7 - b` of its byte (R170, R173). -/
def spriteBit (row : Byte) (b : Nat) : Bool := row.getLsbD (7 - b)

/-- The least key that is down, if any is (R188, D19). -/
def leastKeyDown (s : State) : Option KeyIx :=
  ((List.range Config.numKeys).map (BitVec.ofNat 4)).find? s.keyDown

end Sys2Proof.Machine
end

