-- ==== Sys2Proof/Machine/Flags.lean ====
section
/-! DEFINITION. The flag computations of 41_alu.md R120 and R141. Each is computed from the operands, before the result is
truncated, and VF is written after the result. -/

namespace Sys2Proof.Machine

/-- A flag as VF holds it: 1 or 0 (R23). -/
def flagByte (c : Bool) : VReg := if c then 1#Config.vWidth else 0#Config.vWidth

/-- 8XY4: the exact sum exceeds the largest register value, 0xFF (R127). -/
def carryOf (a b : VReg) : Bool := decide (2 ^ Config.vWidth - 1 < a.toNat + b.toNat)

/-- 8XY5 and 8XY7: no borrow, the minuend is at least the subtrahend (R128, R130). -/
def noBorrow (a b : VReg) : Bool := decide (b.toNat ≤ a.toNat)

/-- 8XY6: the bit shifted out, bit 0 (R129). -/
def shiftedOutRight (a : VReg) : Bool := a.getLsbD 0

/-- 8XYE: the bit shifted out, the top bit, bit 7 (R131). -/
def shiftedOutLeft (a : VReg) : Bool := a.getLsbD (Config.vWidth - 1)

/-- The result to `x[X]` first and the flag to VF second, so that with X = 0xF the flag is what VF holds (R23, R120, D11). -/
def State.setResultFlag (s : State) (x : Reg) (result : VReg) (c : Bool) : State :=
  (s.setV x result).setV .vf (flagByte c)

end Sys2Proof.Machine
end

