-- ==== Sys2Proof/Machine/Alu.lean ====
section
/-! DEFINITION. The ALU and register instructions, 41_alu.md. -/

namespace Sys2Proof.Machine

/-- 6XNN `LD Vx, byte` (R121). -/
def execLdImm (x : Reg) (nn : Byte) (s : State) : Result := .next (s.setV x (zext Config.vWidth nn))

/-- 7XNN `ADD Vx, byte` (R122): no VF side effect. -/
def execAddImm (x : Reg) (nn : Byte) (s : State) : Result := .next (s.setV x (s.V x + zext Config.vWidth nn))

/-- 8XY0 `LD Vx, Vy` (R123). -/
def execLdReg (x y : Reg) (s : State) : Result := .next (s.setV x (s.V y))

/-- 8XY1 `OR Vx, Vy` (R124): VF is not written as a flag (D12). -/
def execOrReg (x y : Reg) (s : State) : Result := .next (s.setV x (s.V x ||| s.V y))

/-- 8XY2 `AND Vx, Vy` (R125, D12). -/
def execAndReg (x y : Reg) (s : State) : Result := .next (s.setV x (s.V x &&& s.V y))

/-- 8XY3 `XOR Vx, Vy` (R126, D12). -/
def execXorReg (x y : Reg) (s : State) : Result := .next (s.setV x (s.V x ^^^ s.V y))

/-- 8XY4 `ADD Vx, Vy` (R127). -/
def execAddReg (x y : Reg) (s : State) : Result :=
  .next (s.setResultFlag x (s.V x + s.V y) (carryOf (s.V x) (s.V y)))

/-- 8XY5 `SUB Vx, Vy` (R128): VX − VY. -/
def execSub (x y : Reg) (s : State) : Result :=
  .next (s.setResultFlag x (s.V x - s.V y) (noBorrow (s.V x) (s.V y)))

/-- 8XY6 `SHR Vx` (R129): VX in place, Y is not read (D10). -/
def execShr (x _y : Reg) (s : State) : Result :=
  .next (s.setResultFlag x (s.V x >>> 1) (shiftedOutRight (s.V x)))

/-- 8XY7 `SUBN Vx, Vy` (R130): VY − VX. -/
def execSubn (x y : Reg) (s : State) : Result :=
  .next (s.setResultFlag x (s.V y - s.V x) (noBorrow (s.V y) (s.V x)))

/-- 8XYE `SHL Vx` (R131): VX in place, Y is not read (D10). -/
def execShl (x _y : Reg) (s : State) : Result :=
  .next (s.setResultFlag x (s.V x <<< 1) (shiftedOutLeft (s.V x)))

/-- CXNN with the random byte `b` (R140): `x[X] <- NN & rnd`. -/
def execRndOf (b : Byte) (x : Reg) (nn : Byte) (s : State) : Result := .next ((s.setV x (zext Config.vWidth (nn &&& b))).countDraw)

/-- CXNN `RND Vx, byte` (R140): the byte is the next one of the random input, a free value (log 3). -/
def execRnd (x : Reg) (nn : Byte) (s : State) : Result := execRndOf (Config.rndIn s.draws) x nn s

end Sys2Proof.Machine
end

