-- ==== Sys2Proof/Machine/Control.lean ====
section
/-! DEFINITION. Control transfer, 40_control_flow.md: return, jumps, call, and the skips on registers. Every meaning begins after
the common part of the step (R72), with `pc` at the instruction's address plus 2; `pc_i` is that value less 2. -/

namespace Sys2Proof.Machine

/-- 00EE `RET` (R100): pop the pc; StackUnderflow on an empty stack (R203). -/
def execRet (s : State) : Result :=
  match s.pop with
  | some (ret, t) => .next (t.setPc (zext Config.pcWidth ret))
  | none => .next (s.halt .stackUnderflow)

/-- 1NNN `JP addr` (R101). -/
def execJp (nnn : Addr12) (s : State) : Result := .next (s.setPc (zext Config.pcWidth nnn))

/-- 2NNN `CALL addr` (R102): push the advanced pc, then jump; StackOverflow on a full stack (R202). -/
def execCall (nnn : Addr12) (s : State) : Result :=
  match s.push (zext Config.stackEntryWidth s.pc) with
  | some t => .next (t.setPc (zext Config.pcWidth nnn))
  | none => .next (s.halt .stackOverflow)

/-- 3XNN `SE Vx, byte` (R103). -/
def execSeImm (x : Reg) (nn : Byte) (s : State) : Result := .next (s.skipIf (s.V x == zext Config.vWidth nn))

/-- 4XNN `SNE Vx, byte` (R104). -/
def execSneImm (x : Reg) (nn : Byte) (s : State) : Result := .next (s.skipIf (s.V x != zext Config.vWidth nn))

/-- 5XY0 `SE Vx, Vy` (R105). -/
def execSeReg (x y : Reg) (s : State) : Result := .next (s.skipIf (s.V x == s.V y))

/-- 9XY0 `SNE Vx, Vy` (R106). -/
def execSneReg (x y : Reg) (s : State) : Result := .next (s.skipIf (s.V x != s.V y))

/-- BNNN `JP V0, addr` (R107). -/
def execJpV0 (nnn : Addr12) (s : State) : Result := .next (s.setPc (zext Config.pcWidth nnn + zext Config.pcWidth (s.V .v0)))

/-- The default row (R81, R206): a no-op. Its diagnostic is an output and no state (R230); `State.diagOut` gives it. -/
def execUnrecognized (_word : Word) (s : State) : Result := .next s

end Sys2Proof.Machine
end

