-- ==== Sys2Proof/Machine/DisplayUnit.lean ====
section
/-! DEFINITION. The display instructions and the XOR-blit unit, 43_display.md. -/

namespace Sys2Proof.Machine

/-- 00E0 `CLS` (R171). -/
def execCls (s : State) : Result := .next (s.setDisp Display.clear)

/-- One sprite pixel at (px, py): where the sprite bit is set and the place lies inside the display, a cell that is on is a
collision, and the cell is inverted (R173, R174). The Boolean is the collision so far. -/
def blitPixel (px py : Nat) (bit : Bool) (dc : Display × Bool) : Display × Bool :=
  if px < Config.dispW ∧ py < Config.dispH ∧ bit = true then (dc.1.flip px py, dc.2 || dc.1.cell px py) else dc

/-- One sprite row at (x0, py): its 8 bits, the most significant first (R173). -/
def blitRow (x0 py : Nat) (row : Byte) (dc : Display × Bool) : Display × Bool :=
  (List.range 8).foldl (fun dc b => blitPixel (x0 + b) py (spriteBit row b) dc) dc

/-- The rows of a sprite from row `py` on (R173). -/
def blitRows (x0 : Nat) : Nat → List Byte → Display × Bool → Display × Bool
  | _, [], dc => dc
  | py, row :: rows, dc => blitRows x0 (py + 1) rows (blitRow x0 py row dc)

/-- DXYN `DRW Vx, Vy, nibble` (R173) under a policy. The anchor and all row bytes are read first (R172, D17), the cells are
written, and VF last, with the collision (R175). N = 0 draws no row and leaves VF 0 (R176). -/
def execDrwUnder (p : AddrPolicy) (x y : Reg) (n : Nibble) (s : State) : Result :=
  s.guarded p (blockAddrs s.I n.toNat) fun s =>
    let rows := (blockAddrs s.I n.toNat).map s.byteAt
    let dc := blitRows (anchorX (s.V x)) (anchorY (s.V y)) rows (s.disp, false)
    .next ((s.setDisp dc.1).setV .vf (flagByte dc.2))

/-- DXYN `DRW Vx, Vy, nibble` (R173). -/
def execDrw (x y : Reg) (n : Nibble) (s : State) : Result := execDrwUnder addrPolicy x y n s

end Sys2Proof.Machine
end

