-- ==== Sys2Proof/Machine/IndexMemory.lean ====
section
/-! DEFINITION. The address register and the memory instructions, 42_index_memory.md. An instruction that reaches memory is
written for either address policy (`…Under`, R58) and its meaning takes the hardware's. -/

namespace Sys2Proof.Machine

/-- ANNN `LD I, addr` (R150). -/
def execLdI (nnn : Addr12) (s : State) : Result := .next (s.setI (zext Config.iWidth nnn))

/-- FX1E `ADD I, Vx` (R151): modulo 2^16, VF unchanged (D14). -/
def execAddI (x : Reg) (s : State) : Result := .next (s.setI (s.I + zext Config.iWidth (s.V x)))

/-- FX29 `LD F, Vx` (R152): the full 8-bit value is multiplied. -/
def execLdF (x : Reg) (s : State) : Result := .next (s.setI (glyphAddr (s.V x)))

/-- The bytes `bs` stored from address `base + k` on, in order (R60). -/
def storeFrom (base : IReg) : Nat → List Byte → State → State
  | _, [], s => s
  | k, b :: bs, s => storeFrom base (k + 1) bs (s.setByte (effAddr base k) b)

/-- FX33 `LD B, Vx` (R153) under a policy: the three decimal digits of VX at I, I+1, I+2. -/
def execLdBUnder (p : AddrPolicy) (x : Reg) (s : State) : Result :=
  s.guarded p (blockAddrs s.I 3) fun s => .next (storeFrom s.I 0 (bcdDigits (s.V x)) s)

/-- FX33 `LD B, Vx` (R153). -/
def execLdB (x : Reg) (s : State) : Result := execLdBUnder addrPolicy x s

/-- FX55 `LD [I], Vx` (R154) under a policy: V0 to VX at I, I+1, …; I is unchanged (D15). -/
def execLdMemVxUnder (p : AddrPolicy) (x : Reg) (s : State) : Result :=
  s.guarded p (blockAddrs s.I (x.toNat + 1)) fun s => .next (storeFrom s.I 0 ((regsUpTo x).map fun r => zext 8 (s.V r)) s)

/-- FX55 `LD [I], Vx` (R154). -/
def execLdMemVx (x : Reg) (s : State) : Result := execLdMemVxUnder addrPolicy x s

/-- The registers of `rs` loaded, in order, each from the byte at I plus its own number (R155). -/
def loadRegs (rs : List Reg) (s : State) : State :=
  rs.foldl (fun t r => t.setV r (zext Config.vWidth (t.byteAt (effAddr t.I r.toNat)))) s

/-- FX65 `LD Vx, [I]` (R155) under a policy: V0 to VX from I, I+1, …; I is unchanged (D15). -/
def execLdVxMemUnder (p : AddrPolicy) (x : Reg) (s : State) : Result :=
  s.guarded p (blockAddrs s.I (x.toNat + 1)) fun s => .next (loadRegs (regsUpTo x) s)

/-- FX65 `LD Vx, [I]` (R155). -/
def execLdVxMem (x : Reg) (s : State) : Result := execLdVxMemUnder addrPolicy x s

end Sys2Proof.Machine
end

