-- ==== Sys2Proof/Machine/KeypadTimers.lean ====
section
/-! DEFINITION. The keypad and timer instructions, 44_keypad_timers.md. -/

namespace Sys2Proof.Machine

/-- EX9E `SKP Vx` (R185): skip if key VX mod 16 is down. -/
def execSkp (x : Reg) (s : State) : Result := .next (s.skipIf (s.keyDown (keyOf (s.V x))))

/-- EXA1 `SKNP Vx` (R186): skip if key VX mod 16 is up. -/
def execSknp (x : Reg) (s : State) : Result := .next (s.skipIf (!s.keyDown (keyOf (s.V x))))

/-- FX07 `LD Vx, DT` (R187). -/
def execLdVxDt (x : Reg) (s : State) : Result := .next (s.setV x (zext Config.vWidth s.dt))

/-- FX0A `LD Vx, K` (R188, R191): one step of the key wait. A step that does not commit rewinds the pc; VX is written only by the
commit (D19). -/
def execLdVxK (x : Reg) (s : State) : Result :=
  match s.kwState with
  | .awaitingPress =>
    match leastKeyDown s with
    | some k => .next (((s.setKwKey k).setKwState .awaitingRelease).rewind)
    | none => .next s.rewind
  | .awaitingRelease =>
    if s.keyDown s.kwKey then .next s.rewind
    else .next ((s.setV x (keyCode s.kwKey)).setKwState .awaitingPress)

/-- FX15 `LD DT, Vx` (R189): any value is stored as is (D20). -/
def execLdDtVx (x : Reg) (s : State) : Result := .next (s.setDt (zext Config.timerWidth (s.V x)))

/-- FX18 `LD ST, Vx` (R190): any value is stored as is (D20). -/
def execLdStVx (x : Reg) (s : State) : Result := .next (s.setSt (zext Config.timerWidth (s.V x)))

end Sys2Proof.Machine
end

