-- ==== Sys2Proof/Machine/Driver.lean ====
section
/-! DEFINITION. The atomic operations of 00_scope.md R8 and the contract that orders them: STEP (30_encoding.md R72), TICK
(60_exceptions.md R220), the input poll (R216, R225), the frame (70_reset_and_hazards.md R245), CONSTRUCT (R240 to R242), and the
outputs of the block interface (R229). `blockStep` is one atomic operation, the one the contract has next. -/

namespace Sys2Proof.Machine

/-! ## STEP -/

/-- `Fetch(pc)`: the bytes at pc and pc + 1 as a big-endian word (R13, R57, R72). -/
def State.fetch (s : State) : Word := wordOfBytes (s.byteAt s.pc) (s.byteAt (s.pc + 1#Config.pcWidth))

/-- STEP (R72) under a policy, with `run` the meaning of the decoded instruction: the fetch is checked before the advance
(R204), and the instruction acts after it. -/
def instrStepWith (p : AddrPolicy) (run : Instr → State → Result) (s : State) : Result :=
  s.guarded p [s.pc, s.pc + 1#Config.pcWidth] fun s => run (decode s.fetch) s.advance

/-- STEP on this hardware. -/
def instrStep (s : State) : Result := instrStepWith addrPolicy exec s

/-- The instructions under a policy of the model's choice (R58, R204): the four that reach data memory take it, no other
instruction depends on it. -/
def execUnder (p : AddrPolicy) (i : Instr) (s : State) : Result :=
  match i with
  | .drw x y n => execDrwUnder p x y n s
  | .ldB x => execLdBUnder p x s
  | .ldMemVx x => execLdMemVxUnder p x s
  | .ldVxMem x => execLdVxMemUnder p x s
  | other => exec other s

/-- STEP under a policy of the model's choice. -/
def instrStepUnder (p : AddrPolicy) (s : State) : Result := instrStepWith p (execUnder p) s

/-! ## TICK -/

/-- A timer's count down by one, floored at 0 (R220). -/
def tickDown (b : Timer) : Timer := if b = 0#Config.timerWidth then b else b - 1#Config.timerWidth

/-- TICK (R220): both timers, and nothing else. -/
def State.tick (s : State) : State := (s.setDt (tickDown s.dt)).setSt (tickDown s.st)

/-! ## The input poll -/

/-- One key event applied (R225). -/
def State.applyKey (s : State) (e : KeyEvent) : State := s.setKey e.key e.down

/-- The run-state transitions of R216; HALTED is left by none of them (R219). -/
def State.applyReq (s : State) (r : RunReq) : State :=
  match s.runState, r with
  | .running, .pause => { s with runState := .paused }
  | .paused, .resume => { s with runState := .running }
  | .running, .quit => s.halt .quit
  | .paused, .quit => s.halt .quit
  | .running, .resume => s
  | .running, .none => s
  | .paused, .pause => s
  | .paused, .none => s
  | .halted, _ => s

/-- The frame's key events in arrival order, then its run-state request (R245, D27). -/
def State.applyInput (s : State) (f : FrameInput) : State := (f.keys.foldl State.applyKey s).applyReq f.req

/-- The host's next input; a host whose list is empty sends nothing (log 2). -/
def nextInput : List FrameInput → FrameInput
  | [] => ⟨[], .none⟩
  | f :: _ => f

/-- The input poll that ends a frame; the next frame's first step is then due (R245). -/
def State.poll (s : State) : State :=
  ((s.applyInput (nextInput s.inputs)).setInputs s.inputs.tail).setPhase (Phase.remaining stepsPerFrame)

/-! ## The contract -/

/-- The run is over: the core is HALTED and no frame is under way, for "a run is the sequence FRAME, FRAME, ... from
construction until HALTED" (R245, R219, R258; log 6). -/
def State.runOver (s : State) : Bool :=
  decide (s.runState = .halted) && decide (s.phase = Phase.remaining stepsPerFrame)

/-- ONE ATOMIC OPERATION of the frame contract (R245): while RUNNING the due STEP, TICK or poll (R217); while PAUSED no step and
no tick, and the poll still runs (R218). A core that a STEP has halted makes no further step and no tick (R219); the poll that
ends its frame is still to come, and after it the run is over. -/
def blockStep (s : State) : Result :=
  match s.runState with
  | .halted => if s.runOver then .fault .halted else .next s.poll
  | .paused => .next s.poll
  | .running =>
    match s.phase with
    | .instr more => instrStep (s.setPhase (Phase.remaining more))
    | .tick => .next (s.tick.setPhase .poll)
    | .poll => .next s.poll

/-- R245's loop, written out: `repeat n times: if run_state = RUNNING then STEP`. -/
def frameLoop : Nat → State → Result
  | 0, s => .next s
  | n + 1, s =>
    if s.runState = .running then
      match instrStep s with
      | .next t => frameLoop n t
      | .fault r => .fault r
      | .refused r => .refused r
    else frameLoop n s

/-- R245's FRAME, written out: the steps, `if run_state = RUNNING then TICK`, the composite (which reads only), the poll. -/
def frame (s : State) : Result :=
  match frameLoop stepsPerFrame s with
  | .next t => .next (if t.runState = .running then t.tick.poll else t.poll)
  | .fault r => .fault r
  | .refused r => .refused r

/-! ## CONSTRUCT -/

/-- Image bytes copied in from address `a` on (R242). -/
def loadImage : Nat → List Byte → Memory → Memory
  | _, [], m => m
  | a, b :: bs, m => loadImage (a + 1) bs (Memory.write m a b)

/-- CONSTRUCT(image) (R240 to R242): refused when the image is longer than 3584 bytes, else the reset machine with the image
at 0x200. -/
def construct (image : List Byte) : Result :=
  if Config.maxImage < image.length then .refused .imageTooLarge
  else .next { State.reset with mem := loadImage Config.progBase image [] }

/-! ## Outputs (R229) -/

/-- `sound_on` (R222). -/
def State.soundOn (s : State) : Bool := decide (0 < s.st.toNat)

/-- `disp_out[k]`, k = y·64 + x (R226, R229). -/
def State.dispOut (s : State) (k : Nat) : Bool := s.disp.cell (k % Config.dispW) (k / Config.dispW)

/-- `halt_reason_out`: the code of R200 (D21). -/
def HaltReason.code : HaltReason → BitVec 3
  | .none => 0
  | .stackOverflow => 1
  | .stackUnderflow => 2
  | .addressRange _ => 3
  | .quit => 4

/-- The unrecognized-opcode event of R206 and R230. -/
structure Diag where
  /-- `diag_pc`, the instruction's address -/
  pc : PcReg
  /-- `diag_ins`, its word -/
  ins : Word
  deriving DecidableEq, Repr

/-- The diagnostic a STEP from `s` emits (R72, R230): none where the fetch itself halts the core. -/
def diagOfStepUnder (p : AddrPolicy) (s : State) : Option Diag :=
  match firstOutOfRange p [s.pc, s.pc + 1#Config.pcWidth] with
  | some _ => none
  | none =>
    match decode s.fetch with
    | .unrecognized w => some ⟨s.pc, w⟩
    | _ => none

/-- `diag_valid`, `diag_pc` and `diag_ins` during the transition that `blockStep` makes from `s`: an event exactly where that
transition is a STEP of an unrecognized word (R230). -/
def State.diagOut (s : State) : Option Diag :=
  match s.runState, s.phase with
  | .running, .instr _ => diagOfStepUnder addrPolicy s
  | _, _ => none

/-! ## A word where the next STEP fetches -/

/-- The two bytes of an instruction word stored at pc and pc + 1, the high byte first (R57), with the machine RUNNING and a STEP
due, which is all that the next transition needs to be the STEP that runs it. -/
def State.placeWord (s : State) (w : Word) : State :=
  { (s.setByte s.pc (highByte w)).setByte (s.pc + 1#Config.pcWidth) (lowByte w) with
    runState := .running
    phase := match s.phase with
      | .instr more => .instr more
      | .tick => .instr 0
      | .poll => .instr 0 }

end Sys2Proof.Machine
end

