-- ==== Sys2Proof/Machine/Step.lean ====
section
/-! DEFINITION. The machine's one transition function, and the host's way to put an instruction where it fetches next. -/

namespace Sys2Proof.Machine

/-- One atomic operation of the block: the STEP, the TICK or the poll that the frame contract has next (00_scope.md R8,
70_reset_and_hazards.md R245). -/
def step (s : State) : Host.Outcome State Fault Refusal := blockStep s

/-- `s` with a table word stored where `step` fetches its next instruction, so that `step` runs exactly it. -/
def State.withFetchWord (s : State) (nbits w : Nat) : State := s.placeWord (tableWord nbits w)

end Sys2Proof.Machine
end

