-- ==== Sys2Proof/Machine/Assembly.lean ====
section
/-! DEFINITION. The assembler's spelling of the instructions, 30_encoding.md R84 and R86, with its operands as tokens: what a
line assembles to, how an instruction is spelled, and the line as text. The names are the spec's decision D9 (log 14). -/

namespace Sys2Proof.Machine

/-- The mnemonic of a line (R80, R84). -/
inductive AsmOp where
  | cls | ret | jp | call | se | sne | ld | add | or | and | xor | sub | shr | subn | shl | rnd | drw | skp | sknp
  deriving DecidableEq, Repr

/-- One operand of a line (R84). -/
inductive AsmArg where
  /-- `V0` to `VF` -/
  | reg (r : Reg)
  /-- a number: `byte`, `addr` or `nibble` -/
  | num (n : Nat)
  /-- `I`, the address register -/
  | i
  /-- `DT` -/
  | dt
  /-- `ST` -/
  | st
  /-- `K`, a key -/
  | k
  /-- `F`, a font glyph address -/
  | f
  /-- `B`, a BCD store -/
  | b
  /-- `[I]`, memory at I -/
  | atI
  deriving DecidableEq, Repr

/-- One line of assembly (R84). -/
structure AsmLine where
  op : AsmOp
  args : List AsmArg
  deriving DecidableEq, Repr

/-- A number as an NN field; one that does not fit is not an instruction (R86). -/
def asByte (n : Nat) : Option Byte := if n ≤ 0xFF then some (BitVec.ofNat 8 n) else none

/-- A number as an NNN field (R86). -/
def asAddr (n : Nat) : Option Addr12 := if n ≤ 0xFFF then some (BitVec.ofNat 12 n) else none

/-- A number as an N field (R86). -/
def asNibble (n : Nat) : Option Nibble := if n ≤ 0xF then some (BitVec.ofNat 4 n) else none

/-- The instruction a line assembles to, if it is one (R84, R86). SHR and SHL without a second register assemble Y = 0; the
register of `JP V0, addr` is V0 and no other. -/
def assemble (l : AsmLine) : Option Instr :=
  match l.op, l.args with
  | .cls, [] => some .cls
  | .ret, [] => some .ret
  | .jp, [.num n] => (asAddr n).map .jp
  | .jp, [.reg r, .num n] => if r = .v0 then (asAddr n).map .jpV0 else none
  | .call, [.num n] => (asAddr n).map .call
  | .se, [.reg x, .num n] => (asByte n).map (.seImm x)
  | .se, [.reg x, .reg y] => some (.seReg x y)
  | .sne, [.reg x, .num n] => (asByte n).map (.sneImm x)
  | .sne, [.reg x, .reg y] => some (.sneReg x y)
  | .ld, [.reg x, .num n] => (asByte n).map (.ldImm x)
  | .ld, [.reg x, .reg y] => some (.ldReg x y)
  | .ld, [.i, .num n] => (asAddr n).map .ldI
  | .ld, [.reg x, .dt] => some (.ldVxDt x)
  | .ld, [.reg x, .k] => some (.ldVxK x)
  | .ld, [.dt, .reg x] => some (.ldDtVx x)
  | .ld, [.st, .reg x] => some (.ldStVx x)
  | .ld, [.f, .reg x] => some (.ldF x)
  | .ld, [.b, .reg x] => some (.ldB x)
  | .ld, [.atI, .reg x] => some (.ldMemVx x)
  | .ld, [.reg x, .atI] => some (.ldVxMem x)
  | .add, [.reg x, .num n] => (asByte n).map (.addImm x)
  | .add, [.reg x, .reg y] => some (.addReg x y)
  | .add, [.i, .reg x] => some (.addI x)
  | .or, [.reg x, .reg y] => some (.orReg x y)
  | .and, [.reg x, .reg y] => some (.andReg x y)
  | .xor, [.reg x, .reg y] => some (.xorReg x y)
  | .sub, [.reg x, .reg y] => some (.sub x y)
  | .shr, [.reg x] => some (.shr x 0x0#4)
  | .shr, [.reg x, .reg y] => some (.shr x y)
  | .subn, [.reg x, .reg y] => some (.subn x y)
  | .shl, [.reg x] => some (.shl x 0x0#4)
  | .shl, [.reg x, .reg y] => some (.shl x y)
  | .rnd, [.reg x, .num n] => (asByte n).map (.rnd x)
  | .drw, [.reg x, .reg y, .num n] => (asNibble n).map (.drw x y)
  | .skp, [.reg x] => some (.skp x)
  | .sknp, [.reg x] => some (.sknp x)
  | _, _ => none

/-- How an instruction is spelled (R80); the words of the default row have no spelling, a program writes them as data (R85). -/
def spelling : Instr → Option AsmLine
  | .cls => some ⟨.cls, []⟩
  | .ret => some ⟨.ret, []⟩
  | .jp nnn => some ⟨.jp, [.num nnn.toNat]⟩
  | .call nnn => some ⟨.call, [.num nnn.toNat]⟩
  | .seImm x nn => some ⟨.se, [.reg x, .num nn.toNat]⟩
  | .sneImm x nn => some ⟨.sne, [.reg x, .num nn.toNat]⟩
  | .seReg x y => some ⟨.se, [.reg x, .reg y]⟩
  | .ldImm x nn => some ⟨.ld, [.reg x, .num nn.toNat]⟩
  | .addImm x nn => some ⟨.add, [.reg x, .num nn.toNat]⟩
  | .ldReg x y => some ⟨.ld, [.reg x, .reg y]⟩
  | .orReg x y => some ⟨.or, [.reg x, .reg y]⟩
  | .andReg x y => some ⟨.and, [.reg x, .reg y]⟩
  | .xorReg x y => some ⟨.xor, [.reg x, .reg y]⟩
  | .addReg x y => some ⟨.add, [.reg x, .reg y]⟩
  | .sub x y => some ⟨.sub, [.reg x, .reg y]⟩
  | .shr x y => some ⟨.shr, [.reg x, .reg y]⟩
  | .subn x y => some ⟨.subn, [.reg x, .reg y]⟩
  | .shl x y => some ⟨.shl, [.reg x, .reg y]⟩
  | .sneReg x y => some ⟨.sne, [.reg x, .reg y]⟩
  | .ldI nnn => some ⟨.ld, [.i, .num nnn.toNat]⟩
  | .jpV0 nnn => some ⟨.jp, [.reg .v0, .num nnn.toNat]⟩
  | .rnd x nn => some ⟨.rnd, [.reg x, .num nn.toNat]⟩
  | .drw x y n => some ⟨.drw, [.reg x, .reg y, .num n.toNat]⟩
  | .skp x => some ⟨.skp, [.reg x]⟩
  | .sknp x => some ⟨.sknp, [.reg x]⟩
  | .ldVxDt x => some ⟨.ld, [.reg x, .dt]⟩
  | .ldVxK x => some ⟨.ld, [.reg x, .k]⟩
  | .ldDtVx x => some ⟨.ld, [.dt, .reg x]⟩
  | .ldStVx x => some ⟨.ld, [.st, .reg x]⟩
  | .addI x => some ⟨.add, [.i, .reg x]⟩
  | .ldF x => some ⟨.ld, [.f, .reg x]⟩
  | .ldB x => some ⟨.ld, [.b, .reg x]⟩
  | .ldMemVx x => some ⟨.ld, [.atI, .reg x]⟩
  | .ldVxMem x => some ⟨.ld, [.reg x, .atI]⟩
  | .unrecognized _ => none

/-! ## The line as text -/

/-- The mnemonics of R84. -/
def AsmOp.text : AsmOp → String
  | .cls => "CLS"
  | .ret => "RET"
  | .jp => "JP"
  | .call => "CALL"
  | .se => "SE"
  | .sne => "SNE"
  | .ld => "LD"
  | .add => "ADD"
  | .or => "OR"
  | .and => "AND"
  | .xor => "XOR"
  | .sub => "SUB"
  | .shr => "SHR"
  | .subn => "SUBN"
  | .shl => "SHL"
  | .rnd => "RND"
  | .drw => "DRW"
  | .skp => "SKP"
  | .sknp => "SKNP"

/-- A hexadecimal digit, in capitals. -/
def hexDigit (n : Nat) : Char := (['0', '1', '2', '3', '4', '5', '6', '7', '8', '9', 'A', 'B', 'C', 'D', 'E', 'F'][n]?).getD '0'

/-- A number in hexadecimal, two digits for one that fits a byte, else three (R84). -/
def hexText (n : Nat) : String :=
  if n ≤ 0xFF then "0x" ++ String.ofList [hexDigit (n / 16), hexDigit (n % 16)]
  else "0x" ++ String.ofList [hexDigit (n / 256 % 16), hexDigit (n / 16 % 16), hexDigit (n % 16)]

/-- The operand tokens of R84. -/
def AsmArg.text : AsmArg → String
  | .reg r => "V" ++ String.ofList [hexDigit r.toNat]
  | .num n => hexText n
  | .i => "I"
  | .dt => "DT"
  | .st => "ST"
  | .k => "K"
  | .f => "F"
  | .b => "B"
  | .atI => "[I]"

/-- A line as text: the mnemonic, then the operands with commas between them. -/
def AsmLine.text (l : AsmLine) : String :=
  match l.args with
  | [] => l.op.text
  | args => l.op.text ++ " " ++ String.intercalate ", " (args.map AsmArg.text)

end Sys2Proof.Machine
end

