-- ==== Sys2Proof/Safety.lean ====
section
/-! DEFINITION. The terms claims are made in: what a transition leaves unchanged, part by part; what an instruction may write
(10_state.md R48); what a run does not violate. -/

namespace Sys2Proof.Machine

/-! ## What is left unchanged -/

/-- The parts of the state besides the general registers. -/
inductive Part where
  | mem | index | pc | stack | dt | st | disp | key | run | keyWait | phase | inputs | draws
  deriving DecidableEq, Repr

/-- The part is the same in both states. Memory is compared byte by byte through the model's read (`State.byteAt`), at every
address; the stack with its pointer; the run state with its reason; the key wait with its key. -/
def Part.Same (s t : State) : Part → Prop
  | .mem => ∀ a : Word, t.byteAt a = s.byteAt a
  | .index => t.I = s.I
  | .pc => t.pc = s.pc
  | .stack => t.stack = s.stack ∧ t.sp = s.sp
  | .dt => t.dt = s.dt
  | .st => t.st = s.st
  | .disp => t.disp = s.disp
  | .key => t.key = s.key
  | .run => t.runState = s.runState ∧ t.haltReason = s.haltReason
  | .keyWait => t.kwState = s.kwState ∧ t.kwKey = s.kwKey
  | .phase => t.phase = s.phase
  | .inputs => t.inputs = s.inputs
  | .draws => t.draws = s.draws

/-- Nothing but the registers `rs` and the parts `ps` differs between `s` and `t`. -/
def Unchanged (rs : List Reg) (ps : List Part) (s t : State) : Prop :=
  (∀ r, r ∉ rs → t.V r = s.V r) ∧ ∀ p, p ∉ ps → p.Same s t

/-! ## What an instruction may write: the W column of R48 -/

/-- The registers an instruction may write: its destination, and VF for the six flag writers (R23, R48). -/
def mayWriteReg : Instr → Reg → Bool
  | .ldImm x _, r => r == x
  | .addImm x _, r => r == x
  | .ldReg x _, r => r == x
  | .orReg x _, r => r == x
  | .andReg x _, r => r == x
  | .xorReg x _, r => r == x
  | .addReg x _, r => r == x || r == .vf
  | .sub x _, r => r == x || r == .vf
  | .shr x _, r => r == x || r == .vf
  | .subn x _, r => r == x || r == .vf
  | .shl x _, r => r == x || r == .vf
  | .rnd x _, r => r == x
  | .drw _ _ _, r => r == .vf
  | .ldVxDt x, r => r == x
  | .ldVxK x, r => r == x
  | .ldVxMem x, r => decide (r.toNat ≤ x.toNat)
  | _, _ => false

/-- The other parts an instruction may write (R48; the pc by the control transfers, the skips and FX0A; the run state by the two
fatal conditions of R202 and R203; the draw count by CXNN). -/
def mayWritePart : Instr → Part → Bool
  | .cls, .disp => true
  | .drw _ _ _, .disp => true
  | .ret, p => p == .pc || p == .stack || p == .run
  | .call _, p => p == .pc || p == .stack || p == .run
  | .jp _, .pc => true
  | .jpV0 _, .pc => true
  | .seImm _ _, .pc => true
  | .sneImm _ _, .pc => true
  | .seReg _ _, .pc => true
  | .sneReg _ _, .pc => true
  | .skp _, .pc => true
  | .sknp _, .pc => true
  | .ldI _, .index => true
  | .addI _, .index => true
  | .ldF _, .index => true
  | .ldB _, .mem => true
  | .ldMemVx _, .mem => true
  | .ldDtVx _, .dt => true
  | .ldStVx _, .st => true
  | .ldVxK _, p => p == .pc || p == .keyWait
  | .rnd _ _, .draws => true
  | _, _ => false

/-! ## The accesses an instruction makes to data memory -/

/-- How many bytes of data memory an instruction reaches, from I on (R51, R156). -/
def dataBytes : Instr → Nat
  | .drw _ _ n => n.toNat
  | .ldB _ => 3
  | .ldMemVx x => x.toNat + 1
  | .ldVxMem x => x.toNat + 1
  | _ => 0

/-! ## The opcode table of R80, with the fields of R71 as numbers -/

/-- A row as the spec writes it: mask, match, and the instruction of a word that matches, its fields read by R71 with plain
arithmetic on the word (`BitVec.ofNat` keeps the low bits of its own width). -/
def specRows : List (Word × Word × (Word → Instr)) :=
  let X := fun (w : Word) => BitVec.ofNat 4 (w.toNat / 0x100)
  let Y := fun (w : Word) => BitVec.ofNat 4 (w.toNat / 0x10)
  let N := fun (w : Word) => BitVec.ofNat 4 w.toNat
  let NN := fun (w : Word) => BitVec.ofNat 8 w.toNat
  let NNN := fun (w : Word) => BitVec.ofNat 12 w.toNat
  [(0xFFFF, 0x00E0, fun _ => .cls),
   (0xFFFF, 0x00EE, fun _ => .ret),
   (0xF000, 0x1000, fun w => .jp (NNN w)),
   (0xF000, 0x2000, fun w => .call (NNN w)),
   (0xF000, 0x3000, fun w => .seImm (X w) (NN w)),
   (0xF000, 0x4000, fun w => .sneImm (X w) (NN w)),
   (0xF00F, 0x5000, fun w => .seReg (X w) (Y w)),
   (0xF000, 0x6000, fun w => .ldImm (X w) (NN w)),
   (0xF000, 0x7000, fun w => .addImm (X w) (NN w)),
   (0xF00F, 0x8000, fun w => .ldReg (X w) (Y w)),
   (0xF00F, 0x8001, fun w => .orReg (X w) (Y w)),
   (0xF00F, 0x8002, fun w => .andReg (X w) (Y w)),
   (0xF00F, 0x8003, fun w => .xorReg (X w) (Y w)),
   (0xF00F, 0x8004, fun w => .addReg (X w) (Y w)),
   (0xF00F, 0x8005, fun w => .sub (X w) (Y w)),
   (0xF00F, 0x8006, fun w => .shr (X w) (Y w)),
   (0xF00F, 0x8007, fun w => .subn (X w) (Y w)),
   (0xF00F, 0x800E, fun w => .shl (X w) (Y w)),
   (0xF00F, 0x9000, fun w => .sneReg (X w) (Y w)),
   (0xF000, 0xA000, fun w => .ldI (NNN w)),
   (0xF000, 0xB000, fun w => .jpV0 (NNN w)),
   (0xF000, 0xC000, fun w => .rnd (X w) (NN w)),
   (0xF000, 0xD000, fun w => .drw (X w) (Y w) (N w)),
   (0xF0FF, 0xE09E, fun w => .skp (X w)),
   (0xF0FF, 0xE0A1, fun w => .sknp (X w)),
   (0xF0FF, 0xF007, fun w => .ldVxDt (X w)),
   (0xF0FF, 0xF00A, fun w => .ldVxK (X w)),
   (0xF0FF, 0xF015, fun w => .ldDtVx (X w)),
   (0xF0FF, 0xF018, fun w => .ldStVx (X w)),
   (0xF0FF, 0xF01E, fun w => .addI (X w)),
   (0xF0FF, 0xF029, fun w => .ldF (X w)),
   (0xF0FF, 0xF033, fun w => .ldB (X w)),
   (0xF0FF, 0xF055, fun w => .ldMemVx (X w)),
   (0xF0FF, 0xF065, fun w => .ldVxMem (X w))]

/-! ## What holds of every run -/

/-- The invariant of the machine: memory is in its canonical form, inside the address space; the core is HALTED exactly when a
halt reason is recorded (R42, R216); under this hardware's policy no address fault is ever recorded (R204); the steps left never
exceed the frame's (R217); a paused machine stands at the start of a frame (R216, R218). -/
structure State.Inv (s : State) : Prop where
  memory : s.mem.wf = true
  halted : s.runState = .halted ↔ s.haltReason ≠ .none
  address : ∀ a, s.haltReason ≠ .addressRange a
  frame : ∀ more, s.phase = .instr more → more < stepsPerFrame
  paused : s.runState = .paused → s.phase = Phase.remaining stepsPerFrame

/-- A safe state: the core has not halted (R219, R258). -/
def State.Live (s : State) : Prop := s.runState ≠ .halted

/-! ## Runs of one instruction after another, as the laws of calls speak of them -/

/-- CALLs executed one after another, each from the state the last one left, with the default advance of its step (R72). -/
def runCalls : List Addr12 → State → Result
  | [], s => .next s
  | nnn :: rest, s =>
    match exec (.call nnn) s.advance with
    | .next t => runCalls rest t
    | .fault r => .fault r
    | .refused r => .refused r

/-! ## The pixels of a sprite -/

/-- Does a sprite of the bytes `rows` with its anchor at (x0, y0) have a set pixel at (px, py)? Only places inside the display
count (R173, R174). -/
def spritePixel (x0 y0 : Nat) (rows : List Byte) (px py : Nat) : Bool :=
  decide (px < Config.dispW) && decide (py < Config.dispH) && decide (x0 ≤ px) && decide (px < x0 + 8) && decide (y0 ≤ py) &&
    match rows[py - y0]? with
    | some row => spriteBit row (px - x0)
    | none => false

/-- The sprite that DXYN draws from `s` (R172, R173). -/
def drawnPixel (x y : Reg) (n : Nibble) (s : State) (px py : Nat) : Bool :=
  spritePixel (anchorX (s.V x)) (anchorY (s.V y)) ((blockAddrs s.I n.toNat).map s.byteAt) px py

end Sys2Proof.Machine
end

