-- ==== Sys2Proof/Certificates/Slice0/Obligations.lean ====
section
/-! DEFINITION. The statements for the provers. A meaning begins after the default advance of its step (R72), so in a statement
about `exec` the state's pc is the instruction's address plus 2. `Unchanged rs ps s t` says that nothing but the registers `rs`
and the parts `ps` differs (Safety.lean); memory is compared through the read of one byte. Where a statement rests on a
decision the spec marks as its own (D<n>) or on an entry of the log, its docstring says so. -/

open Sys2Proof Sys2Proof.Machine

/-! ## Encoding -/

/-- Decoding the word of a well-formed instruction gives it back, every operand at every value its field admits. Derived: R86
and R87 are marked derived by the spec. -/
def Obligations.DecodeOfEncodeIsTheInstruction : Prop :=
  ∀ i : Instr, i.wellFormed = true → decode (encode i) = i

/-- Each word has one meaning: the instruction a word decodes to is well formed and encodes to that very word. Derived, as
above. -/
def Obligations.EncodeOfDecodeIsTheWord : Prop :=
  ∀ w : Word, (decode w).wellFormed = true ∧ encode (decode w) = w

/-- R71 and R80: a word that matches a row of the table (`ins & mask = match`) decodes to that row's instruction with the fields
of R71, and there are 34 rows. -/
def Obligations.DecodeFollowsTheOpcodeTable : Prop :=
  specRows.length = 34 ∧ ∀ row ∈ specRows, ∀ w : Word, w &&& row.1 = row.2.1 → decode w = row.2.2 w

/-- No two rows of the table match one word. Derived: R87 is marked derived. -/
def Obligations.NoTwoOpcodeRowsMatchOneWord : Prop :=
  opcodeTable.length = 34 ∧ opcodeTable.Nodup ∧
  ∀ r ∈ opcodeTable, ∀ q ∈ opcodeTable, ∀ w : Word, r.matches w = true → q.matches w = true → r = q

/-- The words that decode to the default row are exactly those of R81's list, and the row holds the word itself; they are the
words that match no row of R80. Derived: R81 is marked derived; strict matching is D7. -/
def Obligations.UnrecognizedWordsAreTheListedOnes : Prop :=
  ∀ w : Word, (decode w = .unrecognized w ↔ isUnrecognizedWord w = true) ∧
    (∀ v, decode w = .unrecognized v → v = w) ∧
    (decode w = .unrecognized w ↔ ∀ r ∈ opcodeTable, r.matches w = false)

/-- All the words of 95_test_vectors.md V1, written out, decode as that table says. Derived: that 0x5121, 0x9AB7, 0x8128, 0x812F,
0xE19F, 0xF130 and the words of class 0 are unrecognized rests on strict matching, the decision D7 (log 10). -/
def Obligations.SampleWordsDecodeAsTheVectorsSay : Prop :=
  decode 0xABCD#16 = .ldI 0xBCD#12 ∧ decode 0xD123#16 = .drw 1#4 2#4 3#4 ∧ decode 0x00E0#16 = .cls ∧
  decode 0x00EE#16 = .ret ∧ decode 0x00E1#16 = .unrecognized 0x00E1#16 ∧ decode 0x0000#16 = .unrecognized 0x0000#16 ∧
  decode 0x0123#16 = .unrecognized 0x0123#16 ∧ decode 0x9AB7#16 = .unrecognized 0x9AB7#16 ∧
  decode 0x812F#16 = .unrecognized 0x812F#16 ∧ decode 0xE19F#16 = .unrecognized 0xE19F#16 ∧
  decode 0x5120#16 = .seReg 1#4 2#4 ∧ decode 0x5121#16 = .unrecognized 0x5121#16 ∧ decode 0x9AB0#16 = .sneReg 0xA#4 0xB#4 ∧
  decode 0x812E#16 = .shl 1#4 2#4 ∧ decode 0x8128#16 = .unrecognized 0x8128#16 ∧ decode 0xE19E#16 = .skp 1#4 ∧
  decode 0xE1A1#16 = .sknp 1#4 ∧ decode 0xF130#16 = .unrecognized 0xF130#16 ∧ decode 0xFF65#16 = .ldVxMem 0xF#4

/-- Bytes decode big-endian, two at a time, with the bytes after them left over; fewer than two bytes hold no instruction
(30_encoding.md section 1, 20_memory.md section 3). -/
def Obligations.BytesDecodeHighByteFirst : Prop :=
  (∀ (hi lo : Byte) (rest : List Byte), ∃ w : Word, w.toNat = hi.toNat * 256 + lo.toNat ∧
    decodeBytes (hi :: lo :: rest) = .ok (decode w, rest)) ∧
  decodeBytes [] = .error .tooFewBytes ∧ (∀ b : Byte, decodeBytes [b] = .error .tooFewBytes) ∧
  ∀ (i : Instr) (rest : List Byte), i.wellFormed = true → decodeBytes (encodeBytes i ++ rest) = .ok (i, rest)

/-- An instruction's spelling assembles to it, only the default row's words have no spelling, a line never assembles to one of
them, and, in every form that holds a number, a number that does not fit its field (NN, NNN or N) is not an instruction, and one
that fits is. Derived: R86 is marked derived; the mnemonics are D9 (log 14). -/
def Obligations.AssemblingTheSpellingGivesTheInstruction : Prop :=
  (∀ (i : Instr) (l : AsmLine), spelling i = some l → assemble l = some i) ∧
  (∀ i : Instr, spelling i = none ↔ ∃ w, i = .unrecognized w) ∧
  (∀ (l : AsmLine) (w : Word), assemble l ≠ some (.unrecognized w)) ∧
  (∀ (x : Reg) (n : Nat), ∀ op ∈ [AsmOp.se, .sne, .ld, .add, .rnd], assemble ⟨op, [.reg x, .num n]⟩ = none ↔ 0xFF < n) ∧
  (∀ n : Nat, ∀ op ∈ [AsmOp.jp, .call], assemble ⟨op, [.num n]⟩ = none ↔ 0xFFF < n) ∧
  (∀ n : Nat, assemble ⟨.jp, [.reg .v0, .num n]⟩ = none ↔ 0xFFF < n) ∧
  (∀ n : Nat, assemble ⟨.ld, [.i, .num n]⟩ = none ↔ 0xFFF < n) ∧
  ∀ (x y : Reg) (n : Nat), assemble ⟨.drw, [.reg x, .reg y, .num n]⟩ = none ↔ 0xF < n

/-! ## The step -/

/-- A STEP RUNS THE DECODED INSTRUCTION. While RUNNING and with a STEP due, a transition is the meaning of the instruction that
the two bytes at pc and pc + 1 hold, high byte first, on the state whose pc is 2 further on and whose place in the frame is
counted down. The place in the frame is the model's own (log 1). -/
def Obligations.StepRunsTheDecodedInstruction : Prop :=
  ∀ (s : State) (more : Nat) (i : Instr), s.runState = .running → s.phase = .instr more →
    decode (wordOfBytes (s.byteAt s.pc) (s.byteAt (s.pc + 1#16))) = i →
    step s = exec i ((s.setPhase (Phase.remaining more)).setPc (s.pc + 2#16))

/-- This hardware wraps: its instructions and its STEP are those of the policy `wrap`, and the byte an address reaches is that of
the address modulo 4096, read or written. Reading back what was written is under the invariant of `StepKeepsTheInvariant`.
Derived: the policy is D3 (log 5). -/
def Obligations.HardwareFollowsTheWrapPolicy : Prop :=
  (∀ i s, exec i s = execUnder .wrap i s) ∧ (∀ s, instrStep s = instrStepUnder .wrap s) ∧
  (∀ (s : State) (a c : Word), a.toNat % 4096 = c.toNat % 4096 → s.byteAt a = s.byteAt c) ∧
  ∀ (s : State) (a c : Word) (b : Byte), s.mem.wf = true →
    (s.setByte a b).byteAt c = if a.toNat % 4096 = c.toNat % 4096 then b else s.byteAt c

/-- A word placed where the machine fetches is the word the next transition runs, whatever the state's pc, run state and place
in the frame. The model's own (log 1, log 11); the premise is the invariant of `StepKeepsTheInvariant`. -/
def Obligations.PlacedWordIsTheNextInstruction : Prop :=
  ∀ (s : State) (w : Nat), s.mem.wf = true → w < 65536 →
    ∃ more, step (s.withFetchWord 16 w) =
      exec (decode (BitVec.ofNat 16 w))
        (((s.placeWord (BitVec.ofNat 16 w)).setPhase (Phase.remaining more)).setPc (s.pc + 2#16))

/-- Under the policy `fault` a fetch at 4096 or above halts the core with ADDRESS_RANGE, at the first offending address, before
the advance: only the run state and its reason change. Derived: the policy is D3; where the address is recorded is log 9. -/
def Obligations.FetchOutOfRangeHaltsUnderFault : Prop :=
  ∀ s : State, 4096 ≤ s.pc.toNat ∨ 4096 ≤ (s.pc + 1#16).toNat →
    ∃ t, instrStepUnder .fault s = .next t ∧ t.runState = .halted ∧
      t.haltReason = .addressRange (if 4096 ≤ s.pc.toNat then s.pc.toNat else (s.pc + 1#16).toNat) ∧ Unchanged [] [.run] s t

/-- Under the policy `fault` DXYN, FX33, FX55 and FX65 halt the core at the first of their addresses that is 4096 or above, with
none of their effects; with all in range they do what they do on this hardware. Derived: D3, D16, D17, log 9. -/
def Obligations.DataOutOfRangeHaltsUnderFault : Prop :=
  ∀ (i : Instr) (s : State),
    (∀ k, k < dataBytes i → 4096 ≤ (effAddr s.I k).toNat → (∀ j, j < k → (effAddr s.I j).toNat < 4096) →
      ∃ t, execUnder .fault i s = .next t ∧ t.runState = .halted ∧ t.haltReason = .addressRange (effAddr s.I k).toNat ∧
        Unchanged [] [.run] s t) ∧
    ((∀ k, k < dataBytes i → (effAddr s.I k).toNat < 4096) → execUnder .fault i s = exec i s)

/-- No instruction stops the machine with a fault or a refusal: every one, the default row included, answers a next state.
Derived: no encoding traps (R81, marked derived); that RET on an empty stack and CALL on a full one answer a next state, with
HALTED in it, is R201 by the decision D21 (log 10), as the model reads it (log 13). -/
def Obligations.EveryInstructionAnswersANextState : Prop :=
  ∀ (i : Instr) (s : State), ∃ t, exec i s = .next t

/-! ## ALU and register operations -/

/-- R121: 6XNN loads NN as it is, and changes nothing else. -/
def Obligations.LoadImmediateWritesTheByte : Prop :=
  ∀ (x : Reg) (nn : Byte) (s : State), ∃ t, exec (.ldImm x nn) s = .next t ∧ t.V x = nn ∧ Unchanged [x] [] s t

/-- R122: 7XNN adds modulo 256 and has no VF side effect: nothing but VX changes. -/
def Obligations.AddImmediateWrapsWithoutFlag : Prop :=
  ∀ (x : Reg) (nn : Byte) (s : State), ∃ t, exec (.addImm x nn) s = .next t ∧
    (t.V x).toNat = ((s.V x).toNat + nn.toNat) % 256 ∧ Unchanged [x] [] s t

/-- R123: 8XY0 copies VY to VX, and changes nothing else. -/
def Obligations.CopyWritesTheOtherRegister : Prop :=
  ∀ (x y : Reg) (s : State), ∃ t, exec (.ldReg x y) s = .next t ∧ t.V x = s.V y ∧ Unchanged [x] [] s t

/-- 8XY1, 8XY2, 8XY3 write the bitwise OR, AND and XOR, and leave VF alone unless it is VX. Derived: VF unchanged is D12. -/
def Obligations.LogicWritesTheBitwiseResult : Prop :=
  ∀ (x y : Reg) (s : State),
    (∃ t, exec (.orReg x y) s = .next t ∧ (∀ k, (t.V x).getLsbD k = ((s.V x).getLsbD k || (s.V y).getLsbD k)) ∧
      Unchanged [x] [] s t) ∧
    (∃ t, exec (.andReg x y) s = .next t ∧ (∀ k, (t.V x).getLsbD k = ((s.V x).getLsbD k && (s.V y).getLsbD k)) ∧
      Unchanged [x] [] s t) ∧
    (∃ t, exec (.xorReg x y) s = .next t ∧ (∀ k, (t.V x).getLsbD k = ((s.V x).getLsbD k ^^ (s.V y).getLsbD k)) ∧
      Unchanged [x] [] s t)

/-- 8XY4 writes the sum modulo 256 and then VF, 1 when the exact sum exceeds 255, else 0; with X = 0xF the flag is what VF
holds. Derived: the order of the two writes is D11. -/
def Obligations.AddWritesSumThenCarry : Prop :=
  ∀ (x y : Reg) (s : State), ∃ t, exec (.addReg x y) s = .next t ∧
    (x ≠ .vf → (t.V x).toNat = ((s.V x).toNat + (s.V y).toNat) % 256) ∧
    t.V .vf = (if (s.V x).toNat + (s.V y).toNat > 255 then 1#8 else 0#8) ∧ Unchanged [x, .vf] [] s t

/-- 8XY5 and 8XY7 write the difference modulo 256 and then VF, 1 when no borrow occurs, else 0. Derived: D11, and the case of
equal operands is an inference of R128. -/
def Obligations.SubtractWritesDifferenceThenNoBorrow : Prop :=
  ∀ (x y : Reg) (s : State),
    (∃ t, exec (.sub x y) s = .next t ∧
      (x ≠ .vf → ((t.V x).toNat : Int) = ((s.V x).toNat - (s.V y).toNat : Int) % 256) ∧
      t.V .vf = (if (s.V x).toNat ≥ (s.V y).toNat then 1#8 else 0#8) ∧ Unchanged [x, .vf] [] s t) ∧
    (∃ t, exec (.subn x y) s = .next t ∧
      (x ≠ .vf → ((t.V x).toNat : Int) = ((s.V y).toNat - (s.V x).toNat : Int) % 256) ∧
      t.V .vf = (if (s.V y).toNat ≥ (s.V x).toNat then 1#8 else 0#8) ∧ Unchanged [x, .vf] [] s t)

/-- 8XY6 and 8XYE shift VX in place by one, and then write the bit shifted out to VF; Y is not read. Derived: D10, D11. -/
def Obligations.ShiftsWriteResultThenBitShiftedOut : Prop :=
  ∀ (x y : Reg) (s : State),
    (∃ t, exec (.shr x y) s = .next t ∧ (x ≠ .vf → (t.V x).toNat = (s.V x).toNat / 2) ∧
      (t.V .vf).toNat = (s.V x).toNat % 2 ∧ Unchanged [x, .vf] [] s t ∧ ∀ y', exec (.shr x y') s = .next t) ∧
    (∃ t, exec (.shl x y) s = .next t ∧ (x ≠ .vf → (t.V x).toNat = 2 * (s.V x).toNat % 256) ∧
      (t.V .vf).toNat = (s.V x).toNat / 128 ∧ Unchanged [x, .vf] [] s t ∧ ∀ y', exec (.shl x y') s = .next t)

/-- CXNN writes NN AND the byte it takes from the random input, whatever that byte is, and takes one. Derived: a draw under no
law is D13; the free value and its count are the model's own (log 3). -/
def Obligations.RandomIsMaskedByTheImmediate : Prop :=
  ∀ (x : Reg) (nn : Byte) (s : State),
    (∃ t, exec (.rnd x nn) s = .next t ∧ t.V x = nn &&& Config.rndIn s.draws ∧ t.draws = s.draws + 1 ∧
      Unchanged [x] [.draws] s t) ∧
    ∀ b : Byte, ∃ t, execRndOf b x nn s = .next t ∧ t.V x = nn &&& b ∧ Unchanged [x] [.draws] s t

/-! ## Control transfer -/

/-- RET pops the pc, keeping the entry it reads (R100); on an empty stack it halts the core with STACK_UNDERFLOW (R203), and
nothing but the run state and its reason changes. Derived: HALTED with that reason is R201 by the decision D21 (log 10), a next
state by log 13; that a pop keeps the entry is R26 by D31. -/
def Obligations.ReturnPopsOrUnderflows : Prop :=
  ∀ s : State,
    (0 < s.sp.val → ∃ t, exec .ret s = .next t ∧ t.sp.val = s.sp.val - 1 ∧ s.stack[s.sp.val - 1]? = some t.pc ∧
      t.stack = s.stack ∧ Unchanged [] [.pc, .stack] s t) ∧
    (s.sp.val = 0 → ∃ t, exec .ret s = .next t ∧ t.runState = .halted ∧ t.haltReason = .stackUnderflow ∧
      Unchanged [] [.run] s t)

/-- R101 and R107: JP goes to NNN, JP V0 to NNN plus V0, any target taken as it is. -/
def Obligations.JumpsGoToTheirTarget : Prop :=
  ∀ (nnn : Addr12) (s : State),
    (∃ t, exec (.jp nnn) s = .next t ∧ t.pc.toNat = nnn.toNat ∧ Unchanged [] [.pc] s t) ∧
    (∃ t, exec (.jpV0 nnn) s = .next t ∧ t.pc.toNat = nnn.toNat + (s.V .v0).toNat ∧ Unchanged [] [.pc] s t)

/-- CALL pushes the advanced pc and goes to NNN (R102); on a full stack it halts the core with STACK_OVERFLOW (R202), and
nothing but the run state and its reason changes. Derived: HALTED with that reason is R201 by the decision D21 (log 10), a next
state by log 13. -/
def Obligations.CallPushesOrOverflows : Prop :=
  ∀ (nnn : Addr12) (s : State),
    (s.sp.val < 12 → ∃ t, exec (.call nnn) s = .next t ∧ t.sp.val = s.sp.val + 1 ∧ t.pc.toNat = nnn.toNat ∧
      t.stack[s.sp.val]? = some s.pc ∧ (∀ k : Nat, k ≠ s.sp.val → t.stack[k]? = s.stack[k]?) ∧
      Unchanged [] [.pc, .stack] s t) ∧
    (s.sp.val = 12 → ∃ t, exec (.call nnn) s = .next t ∧ t.runState = .halted ∧ t.haltReason = .stackOverflow ∧
      Unchanged [] [.run] s t)

/-- R103 to R106: the four skips on registers add 2 to the pc, modulo 2^16, exactly when their comparison holds, and change
nothing else. -/
def Obligations.SkipsCompareAndAdvance : Prop :=
  ∀ (x y : Reg) (nn : Byte) (s : State),
    (∃ t, exec (.seImm x nn) s = .next t ∧
      t.pc.toNat = (if s.V x = nn then (s.pc.toNat + 2) % 65536 else s.pc.toNat) ∧ Unchanged [] [.pc] s t) ∧
    (∃ t, exec (.sneImm x nn) s = .next t ∧
      t.pc.toNat = (if s.V x ≠ nn then (s.pc.toNat + 2) % 65536 else s.pc.toNat) ∧ Unchanged [] [.pc] s t) ∧
    (∃ t, exec (.seReg x y) s = .next t ∧
      t.pc.toNat = (if s.V x = s.V y then (s.pc.toNat + 2) % 65536 else s.pc.toNat) ∧ Unchanged [] [.pc] s t) ∧
    (∃ t, exec (.sneReg x y) s = .next t ∧
      t.pc.toNat = (if s.V x ≠ s.V y then (s.pc.toNat + 2) % 65536 else s.pc.toNat) ∧ Unchanged [] [.pc] s t)

/-- A CALL and the RET that answers it come back to the address after the CALL, with the stack pointer as before and nothing
else changed (40_control_flow.md section 5; R109 is marked derived). -/
def Obligations.ReturnUndoesCall : Prop :=
  ∀ (nnn : Addr12) (s : State), s.sp.val < 12 →
    ∃ t u, exec (.call nnn) s = .next t ∧ exec .ret t.advance = .next u ∧ u.pc = s.pc ∧ u.sp = s.sp ∧
      (∀ k : Nat, k ≠ s.sp.val → u.stack[k]? = s.stack[k]?) ∧ Unchanged [] [.stack] s u

/-- From an empty stack twelve CALLs in a row succeed (R102), and the thirteenth halts the core with STACK_OVERFLOW (R202), its pc
advanced, the stack and its pointer as they were. Derived: HALTED with that reason is R201 by the decision D21 (log 10), a next
state by log 13. -/
def Obligations.ThirteenthNestedCallOverflows : Prop :=
  ∀ (targets : List Addr12) (last : Addr12) (s : State), targets.length = 12 → s.sp.val = 0 →
    ∃ t u, runCalls targets s = .next t ∧ t.sp.val = 12 ∧ t.runState = s.runState ∧
      runCalls (targets ++ [last]) s = .next u ∧ u.runState = .halted ∧ u.haltReason = .stackOverflow ∧
      u.pc = t.pc + 2#16 ∧ Unchanged [] [.run, .pc] t u

/-! ## The address register and memory -/

/-- R150: ANNN sets I to NNN, and changes nothing else. -/
def Obligations.LoadIndexSetsTheAddress : Prop :=
  ∀ (nnn : Addr12) (s : State), ∃ t, exec (.ldI nnn) s = .next t ∧ t.I.toNat = nnn.toNat ∧ Unchanged [] [.index] s t

/-- FX1E adds VX to I modulo 2^16 and leaves VF alone. Derived: D14. -/
def Obligations.AddIndexWrapsAtSixteenBits : Prop :=
  ∀ (x : Reg) (s : State), ∃ t, exec (.addI x) s = .next t ∧
    t.I.toNat = (s.I.toNat + (s.V x).toNat) % 65536 ∧ Unchanged [] [.index] s t

/-- R152: FX29 sets I to five times the whole of VX, and changes nothing else. -/
def Obligations.GlyphAddressIsFiveTimesTheDigit : Prop :=
  ∀ (x : Reg) (s : State), ∃ t, exec (.ldF x) s = .next t ∧ t.I.toNat = 5 * (s.V x).toNat ∧ Unchanged [] [.index] s t

/-- FX33 stores the hundreds, tens and ones of VX at I, I+1, I+2, and every byte outside these three reads as before. Derived:
addresses are taken modulo 4096 by the policy of D3. Reading back what was stored is under the invariant of
`StepKeepsTheInvariant`. -/
def Obligations.BcdStoresThreeDigits : Prop :=
  ∀ (x : Reg) (s : State), ∃ t, exec (.ldB x) s = .next t ∧
    (s.mem.wf = true →
      (t.byteAt (effAddr s.I 0)).toNat = (s.V x).toNat / 100 ∧
      (t.byteAt (effAddr s.I 1)).toNat = (s.V x).toNat / 10 % 10 ∧
      (t.byteAt (effAddr s.I 2)).toNat = (s.V x).toNat % 10) ∧
    (∀ a : Word, (∀ k, k < 3 → cellIndex (effAddr s.I k) ≠ cellIndex a) → t.byteAt a = s.byteAt a) ∧
    Unchanged [] [.mem] s t

/-- FX55 stores V0 to VX at I, I+1, …, every byte outside these X+1 reads as before, and I is unchanged. Derived: D3, D15.
Reading back is under the invariant, as above. -/
def Obligations.StoreBlockWritesTheRegisters : Prop :=
  ∀ (x : Reg) (s : State), ∃ t, exec (.ldMemVx x) s = .next t ∧
    (s.mem.wf = true → ∀ r : Reg, r.toNat ≤ x.toNat → t.byteAt (effAddr s.I r.toNat) = s.V r) ∧
    (∀ a : Word, (∀ k, k ≤ x.toNat → cellIndex (effAddr s.I k) ≠ cellIndex a) → t.byteAt a = s.byteAt a) ∧
    Unchanged [] [.mem] s t

/-- FX65 loads V0 to VX from I, I+1, …, leaves the registers above VX alone, and I unchanged. Derived: D3, D15. -/
def Obligations.LoadBlockReadsTheRegisters : Prop :=
  ∀ (x : Reg) (s : State), ∃ t, exec (.ldVxMem x) s = .next t ∧
    (∀ r : Reg, r.toNat ≤ x.toNat → t.V r = s.byteAt (effAddr s.I r.toNat)) ∧
    (∀ r : Reg, x.toNat < r.toNat → t.V r = s.V r) ∧ Unchanged (regsUpTo x) [] s t

/-- Registers stored by FX55 come back by an FX65 with the same X, from any state with the stored memory and the same I.
Derived: D3, D15; under the invariant, as above. -/
def Obligations.StoredRegistersLoadBack : Prop :=
  ∀ (x : Reg) (s u : State), s.mem.wf = true →
    ∃ t, exec (.ldMemVx x) s = .next t ∧ (u.mem = t.mem → u.I = s.I →
      ∃ v, exec (.ldVxMem x) u = .next v ∧ ∀ r : Reg, r.toNat ≤ x.toNat → v.V r = s.V r)

/-- A word that FX55 stores where the pc points is the word the next step fetches. Derived: D5; under the invariant, as
above. -/
def Obligations.StoredCodeIsFetchedNext : Prop :=
  ∀ (x : Reg) (s : State), s.mem.wf = true → 1 ≤ x.toNat → s.I = s.pc →
    ∃ t, exec (.ldMemVx x) s = .next t ∧ t.pc = s.pc ∧ t.fetch.toNat = (s.V 0#4).toNat * 256 + (s.V 1#4).toNat

/-! ## The display -/

/-- R171: 00E0 sets every cell off and changes nothing else. -/
def Obligations.ClearSetsEveryCellOff : Prop :=
  ∀ s : State, ∃ t, exec .cls s = .next t ∧ (∀ x y, x < 64 → y < 32 → t.disp.cell x y = false) ∧ Unchanged [] [.disp] s t

/-- DXYN inverts exactly the cells under a set pixel of the sprite, clipped at the right and bottom edges; VF is 1 when such a
cell was on, else 0; N = 0 draws nothing and leaves VF 0; memory and I are unchanged. The sprite's bytes and its anchor are
those of the state before (`drawnPixel`). Derived: D3, D17; R176 is marked derived. -/
def Obligations.DrawInvertsThePixelsAndFlagsCollision : Prop :=
  ∀ (x y : Reg) (n : Nibble) (s : State), ∃ t, exec (.drw x y n) s = .next t ∧
    (∀ px py, t.disp.cell px py = (s.disp.cell px py ^^ drawnPixel x y n s px py)) ∧
    ((∃ px py, drawnPixel x y n s px py = true ∧ s.disp.cell px py = true) → t.V .vf = 1#8) ∧
    ((¬ ∃ px py, drawnPixel x y n s px py = true ∧ s.disp.cell px py = true) → t.V .vf = 0#8) ∧
    (n = 0#4 → t.disp = s.disp ∧ t.V .vf = 0#8) ∧ Unchanged [.vf] [.disp] s t

/-- Drawing one sprite twice at one place restores the display, and the second draw's VF is 1 exactly when some pixel of the
sprite fell on a cell that was off before the first (95_test_vectors.md W8). Neither coordinate register is VF, which the first
draw overwrites. Derived: D3, D17. -/
def Obligations.DrawingTwiceRestoresTheDisplay : Prop :=
  ∀ (x y : Reg) (n : Nibble) (s : State), x ≠ .vf → y ≠ .vf →
    ∃ t u, exec (.drw x y n) s = .next t ∧ exec (.drw x y n) t.advance = .next u ∧ u.disp = s.disp ∧
      (u.V .vf = 1#8 ↔ ∃ px py, drawnPixel x y n s px py = true ∧ s.disp.cell px py = false)

/-! ## Keypad and timers -/

/-- EX9E and EXA1 add 2 to the pc exactly when key VX mod 16 is down, or up. Derived: the low nibble is D18. -/
def Obligations.KeySkipsReadTheSelectedKey : Prop :=
  ∀ (x : Reg) (s : State),
    (∃ t, exec (.skp x) s = .next t ∧
      t.pc.toNat = (if s.key[(s.V x).toNat % 16]? = some true then (s.pc.toNat + 2) % 65536 else s.pc.toNat) ∧
      Unchanged [] [.pc] s t) ∧
    (∃ t, exec (.sknp x) s = .next t ∧
      t.pc.toNat = (if s.key[(s.V x).toNat % 16]? = some false then (s.pc.toNat + 2) % 65536 else s.pc.toNat) ∧
      Unchanged [] [.pc] s t)

/-- FX0A, the four rows of R191: no key down, a capture of the least key down, the key still held, the commit. Derived: R191 is
marked derived, the least key and the write at the commit are D19. -/
def Obligations.KeyWaitFollowsItsFourRows : Prop :=
  ∀ (x : Reg) (s : State),
    (s.kwState = .awaitingPress → (∀ k, s.keyDown k = false) →
      ∃ t, exec (.ldVxK x) s = .next t ∧ t.pc = s.pc - 2#16 ∧ Unchanged [] [.pc] s t) ∧
    (∀ k : KeyIx, s.kwState = .awaitingPress → s.keyDown k = true → (∀ j : KeyIx, j.toNat < k.toNat → s.keyDown j = false) →
      ∃ t, exec (.ldVxK x) s = .next t ∧ t.kwKey = k ∧ t.kwState = .awaitingRelease ∧ t.pc = s.pc - 2#16 ∧
        Unchanged [] [.pc, .keyWait] s t) ∧
    (s.kwState = .awaitingRelease → s.keyDown s.kwKey = true →
      ∃ t, exec (.ldVxK x) s = .next t ∧ t.pc = s.pc - 2#16 ∧ Unchanged [] [.pc] s t) ∧
    (s.kwState = .awaitingRelease → s.keyDown s.kwKey = false →
      ∃ t, exec (.ldVxK x) s = .next t ∧ (t.V x).toNat = s.kwKey.toNat ∧ t.kwState = .awaitingPress ∧ t.kwKey = s.kwKey ∧
        Unchanged [x] [.keyWait] s t)

/-- R187: FX07 reads the delay timer into VX, and changes nothing else. -/
def Obligations.ReadDelayTimerCopiesIt : Prop :=
  ∀ (x : Reg) (s : State), ∃ t, exec (.ldVxDt x) s = .next t ∧ t.V x = s.dt ∧ Unchanged [x] [] s t

/-- FX15 and FX18 set the delay and the sound timer to VX as it is; the tone is on while the sound timer is not 0. Derived: any
value as is, D20. -/
def Obligations.SetTimersStoreTheRegister : Prop :=
  ∀ (x : Reg) (s : State),
    (∃ t, exec (.ldDtVx x) s = .next t ∧ t.dt = s.V x ∧ Unchanged [] [.dt] s t) ∧
    (∃ t, exec (.ldStVx x) s = .next t ∧ t.st = s.V x ∧ (t.soundOn = true ↔ 0 < (s.V x).toNat) ∧ Unchanged [] [.st] s t)

/-! ## Unrecognized words -/

/-- A word that matches no row is a no-op: its meaning changes nothing, and its STEP only moves the pc on by 2 (and the place in
the frame, log 1). Derived: D8. -/
def Obligations.UnrecognizedWordIsANoOp : Prop :=
  (∀ (w : Word) (s : State), ∃ t, exec (.unrecognized w) s = .next t ∧ Unchanged [] [] s t) ∧
  ∀ (s : State) (more : Nat), s.runState = .running → s.phase = .instr more → isUnrecognizedWord s.fetch = true →
    ∃ t, step s = .next t ∧ t.pc.toNat = (s.pc.toNat + 2) % 65536 ∧ Unchanged [] [.pc, .phase] s t

/-- The diagnostic event is there exactly in a transition that is a STEP of an unrecognized word, and carries its address and the
word. Derived: D8, log 1. -/
def Obligations.DiagnosticMarksUnrecognizedSteps : Prop :=
  ∀ (s : State) (d : Diag), s.diagOut = some d ↔
    s.runState = .running ∧ (∃ more, s.phase = .instr more) ∧ isUnrecognizedWord s.fetch = true ∧
      d.pc = s.pc ∧ d.ins = s.fetch

/-! ## Laws of the whole machine -/

/-- An instruction writes only what the W column of R48 gives it (`mayWriteReg`, `mayWritePart`), whatever the state. Derived:
R48 is marked derived. -/
def Obligations.InstructionsWriteOnlyTheirOwnState : Prop :=
  ∀ (i : Instr) (s t : State), exec i s = .next t →
    (∀ r, mayWriteReg i r = false → t.V r = s.V r) ∧ ∀ p, mayWritePart i p = false → p.Same s t

/-- The six flag writers leave 0 or 1 in VF on every execution, whatever VF held. Derived: with X = 0xF it rests on D11. -/
def Obligations.FlagWritersLeaveZeroOrOne : Prop :=
  ∀ (i : Instr) (x y : Reg) (n : Nibble) (s : State),
    i ∈ [Instr.addReg x y, .sub x y, .shr x y, .subn x y, .shl x y, .drw x y n] →
    ∃ t, exec i s = .next t ∧ (t.V .vf = 0#8 ∨ t.V .vf = 1#8)

/-- Every transition keeps the invariant: memory canonical and inside its 4096 bytes, HALTED exactly with a reason, no address
fault on this hardware, the frame's bound, a pause only at a frame's start. Derived: the reason is D21 (log 10), its address
log 9; that no address fault arises is D3 (log 5); the frame's bound and the pause at a frame's start speak of the model's own
place in the frame (log 1) and of 11 steps (log 7, D28). -/
def Obligations.StepKeepsTheInvariant : Prop :=
  ∀ s t : State, s.Inv → step s = .next t → t.Inv

/-- The machine after reset meets the invariant. Derived: the reset values it rests on are choices, NONE for the halt reason (D21,
log 4), a memory that lists nothing (log 4, log 8), the place in the frame (log 1, log 7). -/
def Obligations.ResetMeetsTheInvariant : Prop := State.reset.Inv

/-- R220: TICK counts each timer down by 1, floored at 0, and writes nothing else. -/
def Obligations.TickCountsBothTimersDown : Prop :=
  ∀ s : State, (s.tick).dt.toNat = s.dt.toNat - 1 ∧ (s.tick).st.toNat = s.st.toNat - 1 ∧ Unchanged [] [.dt, .st] s s.tick

/-- Each timer is counted down by 1, floored at 0, in a TICK; in every other transition it stays as it is, except that a STEP of
FX15 or FX18 sets it to VX (R28, R220). Derived: which transition is a TICK and which a STEP is log 1; any value as is, D20. -/
def Obligations.TimersFallExceptWhenSet : Prop :=
  ∀ s t : State, step s = .next t →
    (s.runState = .running ∧ s.phase = .tick → t.dt.toNat = s.dt.toNat - 1 ∧ t.st.toNat = s.st.toNat - 1) ∧
    (¬ (s.runState = .running ∧ s.phase = .tick) →
      (t.dt = s.dt ∨
        (s.runState = .running ∧ (∃ more, s.phase = .instr more) ∧ ∃ x, decode s.fetch = .ldDtVx x ∧ t.dt = s.V x)) ∧
      (t.st = s.st ∨
        (s.runState = .running ∧ (∃ more, s.phase = .instr more) ∧ ∃ x, decode s.fetch = .ldStVx x ∧ t.st = s.V x)))

/-- The run state changes only by the two fatal conditions, in a STEP, and by a request, at a poll; the keypad changes only by a
poll's key events, the poll after a halting STEP among them (10_state.md R41 and R31; that a fetch or a block access halts nothing
here is D3; HALTED and its reasons are D21; log 1). -/
def Obligations.RunStateAndKeypadChangeOnlyByTheirCauses : Prop :=
  ∀ s t : State, step s = .next t →
    (t.runState ≠ s.runState →
      (s.runState = .running ∧ (∃ more, s.phase = .instr more) ∧ t.runState = .halted ∧
        ((decode s.fetch = .ret ∧ s.sp.val = 0 ∧ t.haltReason = .stackUnderflow) ∨
          ∃ nnn, decode s.fetch = .call nnn ∧ s.sp.val = 12 ∧ t.haltReason = .stackOverflow)) ∨
      ((s.runState = .paused ∨ s.phase = .poll) ∧ (nextInput s.inputs).req ≠ .none)) ∧
    (t.key ≠ s.key → (s.runState ≠ .running ∨ s.phase = .poll) ∧ (nextInput s.inputs).keys ≠ [])

/-- The run-state requests of R216, row by row; a request changes nothing but the run state and its reason. Derived: the record
of a quit is D22, HALTED's being terminal D24. -/
def Obligations.RunStateRequestsFollowTheTable : Prop :=
  ∀ (s : State) (r : RunReq),
    (s.runState = .running → r = .pause → (s.applyReq r).runState = .paused ∧ (s.applyReq r).haltReason = s.haltReason) ∧
    (s.runState = .paused → r = .resume → (s.applyReq r).runState = .running ∧ (s.applyReq r).haltReason = s.haltReason) ∧
    (s.runState ≠ .halted → r = .quit → (s.applyReq r).runState = .halted ∧ (s.applyReq r).haltReason = .quit) ∧
    (s.runState = .paused → r = .pause → s.applyReq r = s) ∧ (s.runState = .running → r = .resume → s.applyReq r = s) ∧
    (s.runState = .halted → s.applyReq r = s) ∧ (r = .none → s.applyReq r = s) ∧ Unchanged [] [.run] s (s.applyReq r)

/-- The input poll that ends a frame of a RUNNING machine applies the next input, its key events in the order they arrived and then
its request, takes it from the host's queue, and changes nothing of the core but the keypad and the run state; and applied so, a
key ends as its last event says, or as it was where it has none. Derived: D27; the queue and the place in the frame are logs 1
and 2. -/
def Obligations.PollAppliesKeyEventsInOrder : Prop :=
  (∀ s : State, s.runState = .running → s.phase = .poll →
    ∃ t, step s = .next t ∧ t.key = (s.applyInput (nextInput s.inputs)).key ∧
      t.runState = (s.applyInput (nextInput s.inputs)).runState ∧
      t.haltReason = (s.applyInput (nextInput s.inputs)).haltReason ∧ t.inputs = s.inputs.tail ∧
      t.phase = Phase.remaining stepsPerFrame ∧ Unchanged [] [.key, .run, .phase, .inputs] s t) ∧
  ∀ (s : State) (f : FrameInput),
    (∀ k : KeyIx, (s.applyInput f).keyDown k =
      (((f.keys.filter fun e => e.key == k).getLast?.map KeyEvent.down).getD (s.keyDown k))) ∧
    (s.applyInput f).runState = (s.applyReq f.req).runState ∧ (s.applyInput f).haltReason = (s.applyReq f.req).haltReason ∧
    Unchanged [] [.key, .run] s (s.applyInput f)

/-- While PAUSED a transition is the input poll: no step, no tick, and nothing of the core but the keypad and the run state
changes. Derived: D23; the queue and the place in the frame are logs 1 and 2. -/
def Obligations.PausedMachineOnlyPolls : Prop :=
  ∀ s : State, s.runState = .paused →
    ∃ t, step s = .next t ∧ t.key = (s.applyInput (nextInput s.inputs)).key ∧
      t.runState = (s.applyInput (nextInput s.inputs)).runState ∧
      t.haltReason = (s.applyInput (nextInput s.inputs)).haltReason ∧ t.inputs = s.inputs.tail ∧
      Unchanged [] [.key, .run, .phase, .inputs] s t

/-- HALTED is terminal, and a transition stops for no other reason. A HALTED machine with no frame under way is stuck; where a
frame is under way, no step and no tick follows, only the poll that ends it, which changes the keypad and leaves HALTED with its
reason; no input leaves HALTED. Derived: D24; 93_implementation_defined.md U11 calls the end stuck, the model's name for it is
log 6; the place in the frame and the queue are logs 1 and 2. -/
def Obligations.HaltedMachineIsStuck : Prop :=
  (∀ s : State, step s = .fault .halted ↔ s.runState = .halted ∧ s.phase = Phase.remaining stepsPerFrame) ∧
  (∀ (s : State) (r : Refusal), step s ≠ .refused r) ∧
  (∀ s : State, s.runState = .halted → s.phase ≠ Phase.remaining stepsPerFrame →
    ∃ t, step s = .next t ∧ t.key = (s.applyInput (nextInput s.inputs)).key ∧ t.inputs = s.inputs.tail ∧
      t.phase = Phase.remaining stepsPerFrame ∧ Unchanged [] [.key, .phase, .inputs] s t) ∧
  ∀ (s : State) (f : FrameInput), s.runState = .halted →
    (s.applyInput f).runState = .halted ∧ (s.applyInput f).haltReason = s.haltReason

/-- THE FRAME CONTRACT. From the start of a frame of a RUNNING machine, if the frame's steps end still RUNNING, then
`STEPS_PER_FRAME + 2` transitions are FRAME as R245 writes it: the steps, one tick, the poll. If they halt the core, the run
reaches that very state, up to the model's own place in the frame, within `STEPS_PER_FRAME` transitions; one more, the poll, makes
it FRAME as R245 writes it, with no tick, and the run is over. Derived: the transitions are the model's (log 1), the count is D28
(log 7), the end of the run is log 6. -/
def Obligations.TransitionsRealizeTheFrameContract : Prop :=
  ∀ s t : State, s.runState = .running → s.phase = Phase.remaining stepsPerFrame → frameLoop stepsPerFrame s = .next t →
    (t.runState = .running → Host.Core.run Sys2Proof.core (stepsPerFrame + 2) s = frame s) ∧
    (t.runState ≠ .running → ∃ k u v, k ≤ stepsPerFrame ∧ Host.Core.run Sys2Proof.core k s = .next u ∧
      u.runState = .halted ∧ u.setPhase t.phase = t ∧ Host.Core.run Sys2Proof.core (k + 1) s = .next v ∧ frame s = .next v ∧
      step v = .fault .halted)

/-! ## Reset and load -/

/-- CONSTRUCT loads an image of at most 3584 bytes at 0x200 and leaves everything else as reset has it, in the canonical form;
a longer image is refused. Derived: D25, D29. -/
def Obligations.ConstructLoadsTheImageOrRefuses : Prop :=
  ∀ image : List Byte,
    (image.length ≤ 3584 → ∃ t, construct image = .next t ∧ t = { State.reset with mem := t.mem } ∧ t.mem.wf = true ∧
      ∀ a : Nat, a < 4096 → t.mem.read a =
        (if 0x200 ≤ a then (image[a - 0x200]?).getD 0#8 else State.reset.mem.read a)) ∧
    (3584 < image.length → construct image = .refused .imageTooLarge)

/-- The values of R47 at reset: in memory the 80 bytes of the font of R55, digit 0 first, and zeros after them; pc 0x200, an empty
stack, RUNNING, and the zeros of D25. Derived: D21, D25 (log 4), D26 (log 8). -/
def Obligations.ResetHasTheTabledValues : Prop :=
  (List.range 80).map State.reset.mem.read = (
    [0xF0#8, 0x90#8, 0x90#8, 0x90#8, 0xF0#8] ++
    [0x20#8, 0x60#8, 0x20#8, 0x20#8, 0x70#8] ++
    [0xF0#8, 0x10#8, 0xF0#8, 0x80#8, 0xF0#8] ++
    [0xF0#8, 0x10#8, 0xF0#8, 0x10#8, 0xF0#8] ++
    [0x90#8, 0x90#8, 0xF0#8, 0x10#8, 0x10#8] ++
    [0xF0#8, 0x80#8, 0xF0#8, 0x10#8, 0xF0#8] ++
    [0xF0#8, 0x80#8, 0xF0#8, 0x90#8, 0xF0#8] ++
    [0xF0#8, 0x10#8, 0x20#8, 0x40#8, 0x40#8] ++
    [0xF0#8, 0x90#8, 0xF0#8, 0x90#8, 0xF0#8] ++
    [0xF0#8, 0x90#8, 0xF0#8, 0x10#8, 0xF0#8] ++
    [0xF0#8, 0x90#8, 0xF0#8, 0x90#8, 0x90#8] ++
    [0xE0#8, 0x90#8, 0xE0#8, 0x90#8, 0xE0#8] ++
    [0xF0#8, 0x80#8, 0x80#8, 0x80#8, 0xF0#8] ++
    [0xE0#8, 0x90#8, 0x90#8, 0x90#8, 0xE0#8] ++
    [0xF0#8, 0x80#8, 0xF0#8, 0x80#8, 0xF0#8] ++
    [0xF0#8, 0x80#8, 0xF0#8, 0x80#8, 0x80#8]) ∧
  (∀ a : Nat, 80 ≤ a → State.reset.mem.read a = 0#8) ∧
  State.reset.pc = 0x200#16 ∧ State.reset.sp = 0 ∧ State.reset.runState = .running ∧ State.reset.haltReason = .none ∧
  (∀ r, State.reset.V r = 0#8) ∧ State.reset.I = 0#16 ∧ (∀ k : Nat, k < 12 → State.reset.stack[k]? = some 0#16) ∧
  State.reset.dt = 0#8 ∧ State.reset.st = 0#8 ∧ (∀ x y, State.reset.disp.cell x y = false) ∧
  (∀ k, State.reset.keyDown k = false) ∧ State.reset.kwState = .awaitingPress ∧ State.reset.kwKey = 0#4
end

