-- ==== Sys2Proof/Laws/State.lean ====
section
/-! SUPPORT. One lemma per field and per update of State, true by rfl: no later proof unfolds a record update. -/

namespace Sys2Proof.Machine

/-- A value used at its own width is itself: at this hardware's widths no register move loses or adds a bit. -/
@[simp] theorem zext_self {n : Nat} (v : BitVec n) : zext n v = v := BitVec.setWidth_eq v

@[simp] theorem toNat_zext {m n : Nat} (v : BitVec m) : (zext n v).toNat = v.toNat % 2 ^ n := BitVec.toNat_setWidth ..

/-! ## The widths of R6 as numbers, for arithmetic -/

@[simp] theorem pow_vWidth : 2 ^ Config.vWidth = 256 := rfl
@[simp] theorem pow_iWidth : 2 ^ Config.iWidth = 65536 := rfl
@[simp] theorem pow_pcWidth : 2 ^ Config.pcWidth = 65536 := rfl
@[simp] theorem pow_stackEntryWidth : 2 ^ Config.stackEntryWidth = 65536 := rfl
@[simp] theorem pow_timerWidth : 2 ^ Config.timerWidth = 256 := rfl

namespace State

variable (s : State)

theorem V_lt (r : Reg) : (s.V r).toNat < 256 := (s.V r).isLt
theorem I_lt : s.I.toNat < 65536 := s.I.isLt
theorem pc_lt : s.pc.toNat < 65536 := s.pc.isLt
theorem dt_lt : s.dt.toNat < 256 := s.dt.isLt
theorem st_lt : s.st.toNat < 256 := s.st.isLt

/-! ## setV -/

@[simp] theorem setV_mem (r : Reg) (b : VReg) : (s.setV r b).mem = s.mem := rfl
@[simp] theorem setV_regs (r : Reg) (b : VReg) : (s.setV r b).regs = s.regs.set r.toNat b r.isLt := rfl
@[simp] theorem setV_I (r : Reg) (b : VReg) : (s.setV r b).I = s.I := rfl
@[simp] theorem setV_pc (r : Reg) (b : VReg) : (s.setV r b).pc = s.pc := rfl
@[simp] theorem setV_stack (r : Reg) (b : VReg) : (s.setV r b).stack = s.stack := rfl
@[simp] theorem setV_sp (r : Reg) (b : VReg) : (s.setV r b).sp = s.sp := rfl
@[simp] theorem setV_dt (r : Reg) (b : VReg) : (s.setV r b).dt = s.dt := rfl
@[simp] theorem setV_st (r : Reg) (b : VReg) : (s.setV r b).st = s.st := rfl
@[simp] theorem setV_disp (r : Reg) (b : VReg) : (s.setV r b).disp = s.disp := rfl
@[simp] theorem setV_key (r : Reg) (b : VReg) : (s.setV r b).key = s.key := rfl
@[simp] theorem setV_runState (r : Reg) (b : VReg) : (s.setV r b).runState = s.runState := rfl
@[simp] theorem setV_haltReason (r : Reg) (b : VReg) : (s.setV r b).haltReason = s.haltReason := rfl
@[simp] theorem setV_kwState (r : Reg) (b : VReg) : (s.setV r b).kwState = s.kwState := rfl
@[simp] theorem setV_kwKey (r : Reg) (b : VReg) : (s.setV r b).kwKey = s.kwKey := rfl
@[simp] theorem setV_phase (r : Reg) (b : VReg) : (s.setV r b).phase = s.phase := rfl
@[simp] theorem setV_inputs (r : Reg) (b : VReg) : (s.setV r b).inputs = s.inputs := rfl
@[simp] theorem setV_draws (r : Reg) (b : VReg) : (s.setV r b).draws = s.draws := rfl
@[simp] theorem setV_byteAt (r : Reg) (b : VReg) {m : Nat} (c : BitVec m) : (s.setV r b).byteAt c = s.byteAt c := rfl
@[simp] theorem setV_keyDown (r : Reg) (b : VReg) (j : KeyIx) : (s.setV r b).keyDown j = s.keyDown j := rfl

/-! ## setI -/

@[simp] theorem setI_mem (w : IReg) : (s.setI w).mem = s.mem := rfl
@[simp] theorem setI_regs (w : IReg) : (s.setI w).regs = s.regs := rfl
@[simp] theorem setI_I (w : IReg) : (s.setI w).I = w := rfl
@[simp] theorem setI_pc (w : IReg) : (s.setI w).pc = s.pc := rfl
@[simp] theorem setI_stack (w : IReg) : (s.setI w).stack = s.stack := rfl
@[simp] theorem setI_sp (w : IReg) : (s.setI w).sp = s.sp := rfl
@[simp] theorem setI_dt (w : IReg) : (s.setI w).dt = s.dt := rfl
@[simp] theorem setI_st (w : IReg) : (s.setI w).st = s.st := rfl
@[simp] theorem setI_disp (w : IReg) : (s.setI w).disp = s.disp := rfl
@[simp] theorem setI_key (w : IReg) : (s.setI w).key = s.key := rfl
@[simp] theorem setI_runState (w : IReg) : (s.setI w).runState = s.runState := rfl
@[simp] theorem setI_haltReason (w : IReg) : (s.setI w).haltReason = s.haltReason := rfl
@[simp] theorem setI_kwState (w : IReg) : (s.setI w).kwState = s.kwState := rfl
@[simp] theorem setI_kwKey (w : IReg) : (s.setI w).kwKey = s.kwKey := rfl
@[simp] theorem setI_phase (w : IReg) : (s.setI w).phase = s.phase := rfl
@[simp] theorem setI_inputs (w : IReg) : (s.setI w).inputs = s.inputs := rfl
@[simp] theorem setI_draws (w : IReg) : (s.setI w).draws = s.draws := rfl
@[simp] theorem setI_V (w : IReg) (q : Reg) : (s.setI w).V q = s.V q := rfl
@[simp] theorem setI_byteAt (w : IReg) {m : Nat} (c : BitVec m) : (s.setI w).byteAt c = s.byteAt c := rfl
@[simp] theorem setI_keyDown (w : IReg) (j : KeyIx) : (s.setI w).keyDown j = s.keyDown j := rfl

/-! ## setPc -/

@[simp] theorem setPc_mem (w : PcReg) : (s.setPc w).mem = s.mem := rfl
@[simp] theorem setPc_regs (w : PcReg) : (s.setPc w).regs = s.regs := rfl
@[simp] theorem setPc_I (w : PcReg) : (s.setPc w).I = s.I := rfl
@[simp] theorem setPc_pc (w : PcReg) : (s.setPc w).pc = w := rfl
@[simp] theorem setPc_stack (w : PcReg) : (s.setPc w).stack = s.stack := rfl
@[simp] theorem setPc_sp (w : PcReg) : (s.setPc w).sp = s.sp := rfl
@[simp] theorem setPc_dt (w : PcReg) : (s.setPc w).dt = s.dt := rfl
@[simp] theorem setPc_st (w : PcReg) : (s.setPc w).st = s.st := rfl
@[simp] theorem setPc_disp (w : PcReg) : (s.setPc w).disp = s.disp := rfl
@[simp] theorem setPc_key (w : PcReg) : (s.setPc w).key = s.key := rfl
@[simp] theorem setPc_runState (w : PcReg) : (s.setPc w).runState = s.runState := rfl
@[simp] theorem setPc_haltReason (w : PcReg) : (s.setPc w).haltReason = s.haltReason := rfl
@[simp] theorem setPc_kwState (w : PcReg) : (s.setPc w).kwState = s.kwState := rfl
@[simp] theorem setPc_kwKey (w : PcReg) : (s.setPc w).kwKey = s.kwKey := rfl
@[simp] theorem setPc_phase (w : PcReg) : (s.setPc w).phase = s.phase := rfl
@[simp] theorem setPc_inputs (w : PcReg) : (s.setPc w).inputs = s.inputs := rfl
@[simp] theorem setPc_draws (w : PcReg) : (s.setPc w).draws = s.draws := rfl
@[simp] theorem setPc_V (w : PcReg) (q : Reg) : (s.setPc w).V q = s.V q := rfl
@[simp] theorem setPc_byteAt (w : PcReg) {m : Nat} (c : BitVec m) : (s.setPc w).byteAt c = s.byteAt c := rfl
@[simp] theorem setPc_keyDown (w : PcReg) (j : KeyIx) : (s.setPc w).keyDown j = s.keyDown j := rfl

/-! ## advance -/

@[simp] theorem advance_mem : (s.advance).mem = s.mem := rfl
@[simp] theorem advance_regs : (s.advance).regs = s.regs := rfl
@[simp] theorem advance_I : (s.advance).I = s.I := rfl
@[simp] theorem advance_pc : (s.advance).pc = s.pc + 2#16 := rfl
@[simp] theorem advance_stack : (s.advance).stack = s.stack := rfl
@[simp] theorem advance_sp : (s.advance).sp = s.sp := rfl
@[simp] theorem advance_dt : (s.advance).dt = s.dt := rfl
@[simp] theorem advance_st : (s.advance).st = s.st := rfl
@[simp] theorem advance_disp : (s.advance).disp = s.disp := rfl
@[simp] theorem advance_key : (s.advance).key = s.key := rfl
@[simp] theorem advance_runState : (s.advance).runState = s.runState := rfl
@[simp] theorem advance_haltReason : (s.advance).haltReason = s.haltReason := rfl
@[simp] theorem advance_kwState : (s.advance).kwState = s.kwState := rfl
@[simp] theorem advance_kwKey : (s.advance).kwKey = s.kwKey := rfl
@[simp] theorem advance_phase : (s.advance).phase = s.phase := rfl
@[simp] theorem advance_inputs : (s.advance).inputs = s.inputs := rfl
@[simp] theorem advance_draws : (s.advance).draws = s.draws := rfl
@[simp] theorem advance_V (q : Reg) : (s.advance).V q = s.V q := rfl
@[simp] theorem advance_byteAt {m : Nat} (c : BitVec m) : (s.advance).byteAt c = s.byteAt c := rfl
@[simp] theorem advance_keyDown (j : KeyIx) : (s.advance).keyDown j = s.keyDown j := rfl

/-! ## rewind -/

@[simp] theorem rewind_mem : (s.rewind).mem = s.mem := rfl
@[simp] theorem rewind_regs : (s.rewind).regs = s.regs := rfl
@[simp] theorem rewind_I : (s.rewind).I = s.I := rfl
@[simp] theorem rewind_pc : (s.rewind).pc = s.pc - 2#16 := rfl
@[simp] theorem rewind_stack : (s.rewind).stack = s.stack := rfl
@[simp] theorem rewind_sp : (s.rewind).sp = s.sp := rfl
@[simp] theorem rewind_dt : (s.rewind).dt = s.dt := rfl
@[simp] theorem rewind_st : (s.rewind).st = s.st := rfl
@[simp] theorem rewind_disp : (s.rewind).disp = s.disp := rfl
@[simp] theorem rewind_key : (s.rewind).key = s.key := rfl
@[simp] theorem rewind_runState : (s.rewind).runState = s.runState := rfl
@[simp] theorem rewind_haltReason : (s.rewind).haltReason = s.haltReason := rfl
@[simp] theorem rewind_kwState : (s.rewind).kwState = s.kwState := rfl
@[simp] theorem rewind_kwKey : (s.rewind).kwKey = s.kwKey := rfl
@[simp] theorem rewind_phase : (s.rewind).phase = s.phase := rfl
@[simp] theorem rewind_inputs : (s.rewind).inputs = s.inputs := rfl
@[simp] theorem rewind_draws : (s.rewind).draws = s.draws := rfl
@[simp] theorem rewind_V (q : Reg) : (s.rewind).V q = s.V q := rfl
@[simp] theorem rewind_byteAt {m : Nat} (c : BitVec m) : (s.rewind).byteAt c = s.byteAt c := rfl
@[simp] theorem rewind_keyDown (j : KeyIx) : (s.rewind).keyDown j = s.keyDown j := rfl

/-! ## setByte -/

@[simp] theorem setByte_mem {n : Nat} (a : BitVec n) (b : Byte) : (s.setByte a b).mem = s.mem.write (cellIndex a) b := rfl
@[simp] theorem setByte_regs {n : Nat} (a : BitVec n) (b : Byte) : (s.setByte a b).regs = s.regs := rfl
@[simp] theorem setByte_I {n : Nat} (a : BitVec n) (b : Byte) : (s.setByte a b).I = s.I := rfl
@[simp] theorem setByte_pc {n : Nat} (a : BitVec n) (b : Byte) : (s.setByte a b).pc = s.pc := rfl
@[simp] theorem setByte_stack {n : Nat} (a : BitVec n) (b : Byte) : (s.setByte a b).stack = s.stack := rfl
@[simp] theorem setByte_sp {n : Nat} (a : BitVec n) (b : Byte) : (s.setByte a b).sp = s.sp := rfl
@[simp] theorem setByte_dt {n : Nat} (a : BitVec n) (b : Byte) : (s.setByte a b).dt = s.dt := rfl
@[simp] theorem setByte_st {n : Nat} (a : BitVec n) (b : Byte) : (s.setByte a b).st = s.st := rfl
@[simp] theorem setByte_disp {n : Nat} (a : BitVec n) (b : Byte) : (s.setByte a b).disp = s.disp := rfl
@[simp] theorem setByte_key {n : Nat} (a : BitVec n) (b : Byte) : (s.setByte a b).key = s.key := rfl
@[simp] theorem setByte_runState {n : Nat} (a : BitVec n) (b : Byte) : (s.setByte a b).runState = s.runState := rfl
@[simp] theorem setByte_haltReason {n : Nat} (a : BitVec n) (b : Byte) : (s.setByte a b).haltReason = s.haltReason := rfl
@[simp] theorem setByte_kwState {n : Nat} (a : BitVec n) (b : Byte) : (s.setByte a b).kwState = s.kwState := rfl
@[simp] theorem setByte_kwKey {n : Nat} (a : BitVec n) (b : Byte) : (s.setByte a b).kwKey = s.kwKey := rfl
@[simp] theorem setByte_phase {n : Nat} (a : BitVec n) (b : Byte) : (s.setByte a b).phase = s.phase := rfl
@[simp] theorem setByte_inputs {n : Nat} (a : BitVec n) (b : Byte) : (s.setByte a b).inputs = s.inputs := rfl
@[simp] theorem setByte_draws {n : Nat} (a : BitVec n) (b : Byte) : (s.setByte a b).draws = s.draws := rfl
@[simp] theorem setByte_V {n : Nat} (a : BitVec n) (b : Byte) (q : Reg) : (s.setByte a b).V q = s.V q := rfl
@[simp] theorem setByte_keyDown {n : Nat} (a : BitVec n) (b : Byte) (j : KeyIx) : (s.setByte a b).keyDown j = s.keyDown j := rfl

/-! ## halt -/

@[simp] theorem halt_mem (r : HaltReason) : (s.halt r).mem = s.mem := rfl
@[simp] theorem halt_regs (r : HaltReason) : (s.halt r).regs = s.regs := rfl
@[simp] theorem halt_I (r : HaltReason) : (s.halt r).I = s.I := rfl
@[simp] theorem halt_pc (r : HaltReason) : (s.halt r).pc = s.pc := rfl
@[simp] theorem halt_stack (r : HaltReason) : (s.halt r).stack = s.stack := rfl
@[simp] theorem halt_sp (r : HaltReason) : (s.halt r).sp = s.sp := rfl
@[simp] theorem halt_dt (r : HaltReason) : (s.halt r).dt = s.dt := rfl
@[simp] theorem halt_st (r : HaltReason) : (s.halt r).st = s.st := rfl
@[simp] theorem halt_disp (r : HaltReason) : (s.halt r).disp = s.disp := rfl
@[simp] theorem halt_key (r : HaltReason) : (s.halt r).key = s.key := rfl
@[simp] theorem halt_runState (r : HaltReason) : (s.halt r).runState = .halted := rfl
@[simp] theorem halt_haltReason (r : HaltReason) : (s.halt r).haltReason = r := rfl
@[simp] theorem halt_kwState (r : HaltReason) : (s.halt r).kwState = s.kwState := rfl
@[simp] theorem halt_kwKey (r : HaltReason) : (s.halt r).kwKey = s.kwKey := rfl
@[simp] theorem halt_phase (r : HaltReason) : (s.halt r).phase = s.phase := rfl
@[simp] theorem halt_inputs (r : HaltReason) : (s.halt r).inputs = s.inputs := rfl
@[simp] theorem halt_draws (r : HaltReason) : (s.halt r).draws = s.draws := rfl
@[simp] theorem halt_V (r : HaltReason) (q : Reg) : (s.halt r).V q = s.V q := rfl
@[simp] theorem halt_byteAt (r : HaltReason) {m : Nat} (c : BitVec m) : (s.halt r).byteAt c = s.byteAt c := rfl
@[simp] theorem halt_keyDown (r : HaltReason) (j : KeyIx) : (s.halt r).keyDown j = s.keyDown j := rfl

/-! ## setDt -/

@[simp] theorem setDt_mem (b : Timer) : (s.setDt b).mem = s.mem := rfl
@[simp] theorem setDt_regs (b : Timer) : (s.setDt b).regs = s.regs := rfl
@[simp] theorem setDt_I (b : Timer) : (s.setDt b).I = s.I := rfl
@[simp] theorem setDt_pc (b : Timer) : (s.setDt b).pc = s.pc := rfl
@[simp] theorem setDt_stack (b : Timer) : (s.setDt b).stack = s.stack := rfl
@[simp] theorem setDt_sp (b : Timer) : (s.setDt b).sp = s.sp := rfl
@[simp] theorem setDt_dt (b : Timer) : (s.setDt b).dt = b := rfl
@[simp] theorem setDt_st (b : Timer) : (s.setDt b).st = s.st := rfl
@[simp] theorem setDt_disp (b : Timer) : (s.setDt b).disp = s.disp := rfl
@[simp] theorem setDt_key (b : Timer) : (s.setDt b).key = s.key := rfl
@[simp] theorem setDt_runState (b : Timer) : (s.setDt b).runState = s.runState := rfl
@[simp] theorem setDt_haltReason (b : Timer) : (s.setDt b).haltReason = s.haltReason := rfl
@[simp] theorem setDt_kwState (b : Timer) : (s.setDt b).kwState = s.kwState := rfl
@[simp] theorem setDt_kwKey (b : Timer) : (s.setDt b).kwKey = s.kwKey := rfl
@[simp] theorem setDt_phase (b : Timer) : (s.setDt b).phase = s.phase := rfl
@[simp] theorem setDt_inputs (b : Timer) : (s.setDt b).inputs = s.inputs := rfl
@[simp] theorem setDt_draws (b : Timer) : (s.setDt b).draws = s.draws := rfl
@[simp] theorem setDt_V (b : Timer) (q : Reg) : (s.setDt b).V q = s.V q := rfl
@[simp] theorem setDt_byteAt (b : Timer) {m : Nat} (c : BitVec m) : (s.setDt b).byteAt c = s.byteAt c := rfl
@[simp] theorem setDt_keyDown (b : Timer) (j : KeyIx) : (s.setDt b).keyDown j = s.keyDown j := rfl

/-! ## setSt -/

@[simp] theorem setSt_mem (b : Timer) : (s.setSt b).mem = s.mem := rfl
@[simp] theorem setSt_regs (b : Timer) : (s.setSt b).regs = s.regs := rfl
@[simp] theorem setSt_I (b : Timer) : (s.setSt b).I = s.I := rfl
@[simp] theorem setSt_pc (b : Timer) : (s.setSt b).pc = s.pc := rfl
@[simp] theorem setSt_stack (b : Timer) : (s.setSt b).stack = s.stack := rfl
@[simp] theorem setSt_sp (b : Timer) : (s.setSt b).sp = s.sp := rfl
@[simp] theorem setSt_dt (b : Timer) : (s.setSt b).dt = s.dt := rfl
@[simp] theorem setSt_st (b : Timer) : (s.setSt b).st = b := rfl
@[simp] theorem setSt_disp (b : Timer) : (s.setSt b).disp = s.disp := rfl
@[simp] theorem setSt_key (b : Timer) : (s.setSt b).key = s.key := rfl
@[simp] theorem setSt_runState (b : Timer) : (s.setSt b).runState = s.runState := rfl
@[simp] theorem setSt_haltReason (b : Timer) : (s.setSt b).haltReason = s.haltReason := rfl
@[simp] theorem setSt_kwState (b : Timer) : (s.setSt b).kwState = s.kwState := rfl
@[simp] theorem setSt_kwKey (b : Timer) : (s.setSt b).kwKey = s.kwKey := rfl
@[simp] theorem setSt_phase (b : Timer) : (s.setSt b).phase = s.phase := rfl
@[simp] theorem setSt_inputs (b : Timer) : (s.setSt b).inputs = s.inputs := rfl
@[simp] theorem setSt_draws (b : Timer) : (s.setSt b).draws = s.draws := rfl
@[simp] theorem setSt_V (b : Timer) (q : Reg) : (s.setSt b).V q = s.V q := rfl
@[simp] theorem setSt_byteAt (b : Timer) {m : Nat} (c : BitVec m) : (s.setSt b).byteAt c = s.byteAt c := rfl
@[simp] theorem setSt_keyDown (b : Timer) (j : KeyIx) : (s.setSt b).keyDown j = s.keyDown j := rfl

/-! ## setDisp -/

@[simp] theorem setDisp_mem (d : Display) : (s.setDisp d).mem = s.mem := rfl
@[simp] theorem setDisp_regs (d : Display) : (s.setDisp d).regs = s.regs := rfl
@[simp] theorem setDisp_I (d : Display) : (s.setDisp d).I = s.I := rfl
@[simp] theorem setDisp_pc (d : Display) : (s.setDisp d).pc = s.pc := rfl
@[simp] theorem setDisp_stack (d : Display) : (s.setDisp d).stack = s.stack := rfl
@[simp] theorem setDisp_sp (d : Display) : (s.setDisp d).sp = s.sp := rfl
@[simp] theorem setDisp_dt (d : Display) : (s.setDisp d).dt = s.dt := rfl
@[simp] theorem setDisp_st (d : Display) : (s.setDisp d).st = s.st := rfl
@[simp] theorem setDisp_disp (d : Display) : (s.setDisp d).disp = d := rfl
@[simp] theorem setDisp_key (d : Display) : (s.setDisp d).key = s.key := rfl
@[simp] theorem setDisp_runState (d : Display) : (s.setDisp d).runState = s.runState := rfl
@[simp] theorem setDisp_haltReason (d : Display) : (s.setDisp d).haltReason = s.haltReason := rfl
@[simp] theorem setDisp_kwState (d : Display) : (s.setDisp d).kwState = s.kwState := rfl
@[simp] theorem setDisp_kwKey (d : Display) : (s.setDisp d).kwKey = s.kwKey := rfl
@[simp] theorem setDisp_phase (d : Display) : (s.setDisp d).phase = s.phase := rfl
@[simp] theorem setDisp_inputs (d : Display) : (s.setDisp d).inputs = s.inputs := rfl
@[simp] theorem setDisp_draws (d : Display) : (s.setDisp d).draws = s.draws := rfl
@[simp] theorem setDisp_V (d : Display) (q : Reg) : (s.setDisp d).V q = s.V q := rfl
@[simp] theorem setDisp_byteAt (d : Display) {m : Nat} (c : BitVec m) : (s.setDisp d).byteAt c = s.byteAt c := rfl
@[simp] theorem setDisp_keyDown (d : Display) (j : KeyIx) : (s.setDisp d).keyDown j = s.keyDown j := rfl

/-! ## setKey -/

@[simp] theorem setKey_mem (k : KeyIx) (b : Bool) : (s.setKey k b).mem = s.mem := rfl
@[simp] theorem setKey_regs (k : KeyIx) (b : Bool) : (s.setKey k b).regs = s.regs := rfl
@[simp] theorem setKey_I (k : KeyIx) (b : Bool) : (s.setKey k b).I = s.I := rfl
@[simp] theorem setKey_pc (k : KeyIx) (b : Bool) : (s.setKey k b).pc = s.pc := rfl
@[simp] theorem setKey_stack (k : KeyIx) (b : Bool) : (s.setKey k b).stack = s.stack := rfl
@[simp] theorem setKey_sp (k : KeyIx) (b : Bool) : (s.setKey k b).sp = s.sp := rfl
@[simp] theorem setKey_dt (k : KeyIx) (b : Bool) : (s.setKey k b).dt = s.dt := rfl
@[simp] theorem setKey_st (k : KeyIx) (b : Bool) : (s.setKey k b).st = s.st := rfl
@[simp] theorem setKey_disp (k : KeyIx) (b : Bool) : (s.setKey k b).disp = s.disp := rfl
@[simp] theorem setKey_key (k : KeyIx) (b : Bool) : (s.setKey k b).key = s.key.set k.toNat b k.isLt := rfl
@[simp] theorem setKey_runState (k : KeyIx) (b : Bool) : (s.setKey k b).runState = s.runState := rfl
@[simp] theorem setKey_haltReason (k : KeyIx) (b : Bool) : (s.setKey k b).haltReason = s.haltReason := rfl
@[simp] theorem setKey_kwState (k : KeyIx) (b : Bool) : (s.setKey k b).kwState = s.kwState := rfl
@[simp] theorem setKey_kwKey (k : KeyIx) (b : Bool) : (s.setKey k b).kwKey = s.kwKey := rfl
@[simp] theorem setKey_phase (k : KeyIx) (b : Bool) : (s.setKey k b).phase = s.phase := rfl
@[simp] theorem setKey_inputs (k : KeyIx) (b : Bool) : (s.setKey k b).inputs = s.inputs := rfl
@[simp] theorem setKey_draws (k : KeyIx) (b : Bool) : (s.setKey k b).draws = s.draws := rfl
@[simp] theorem setKey_V (k : KeyIx) (b : Bool) (q : Reg) : (s.setKey k b).V q = s.V q := rfl
@[simp] theorem setKey_byteAt (k : KeyIx) (b : Bool) {m : Nat} (c : BitVec m) : (s.setKey k b).byteAt c = s.byteAt c := rfl

/-! ## setKwState -/

@[simp] theorem setKwState_mem (w : KwState) : (s.setKwState w).mem = s.mem := rfl
@[simp] theorem setKwState_regs (w : KwState) : (s.setKwState w).regs = s.regs := rfl
@[simp] theorem setKwState_I (w : KwState) : (s.setKwState w).I = s.I := rfl
@[simp] theorem setKwState_pc (w : KwState) : (s.setKwState w).pc = s.pc := rfl
@[simp] theorem setKwState_stack (w : KwState) : (s.setKwState w).stack = s.stack := rfl
@[simp] theorem setKwState_sp (w : KwState) : (s.setKwState w).sp = s.sp := rfl
@[simp] theorem setKwState_dt (w : KwState) : (s.setKwState w).dt = s.dt := rfl
@[simp] theorem setKwState_st (w : KwState) : (s.setKwState w).st = s.st := rfl
@[simp] theorem setKwState_disp (w : KwState) : (s.setKwState w).disp = s.disp := rfl
@[simp] theorem setKwState_key (w : KwState) : (s.setKwState w).key = s.key := rfl
@[simp] theorem setKwState_runState (w : KwState) : (s.setKwState w).runState = s.runState := rfl
@[simp] theorem setKwState_haltReason (w : KwState) : (s.setKwState w).haltReason = s.haltReason := rfl
@[simp] theorem setKwState_kwState (w : KwState) : (s.setKwState w).kwState = w := rfl
@[simp] theorem setKwState_kwKey (w : KwState) : (s.setKwState w).kwKey = s.kwKey := rfl
@[simp] theorem setKwState_phase (w : KwState) : (s.setKwState w).phase = s.phase := rfl
@[simp] theorem setKwState_inputs (w : KwState) : (s.setKwState w).inputs = s.inputs := rfl
@[simp] theorem setKwState_draws (w : KwState) : (s.setKwState w).draws = s.draws := rfl
@[simp] theorem setKwState_V (w : KwState) (q : Reg) : (s.setKwState w).V q = s.V q := rfl
@[simp] theorem setKwState_byteAt (w : KwState) {m : Nat} (c : BitVec m) : (s.setKwState w).byteAt c = s.byteAt c := rfl
@[simp] theorem setKwState_keyDown (w : KwState) (j : KeyIx) : (s.setKwState w).keyDown j = s.keyDown j := rfl

/-! ## setKwKey -/

@[simp] theorem setKwKey_mem (k : KeyIx) : (s.setKwKey k).mem = s.mem := rfl
@[simp] theorem setKwKey_regs (k : KeyIx) : (s.setKwKey k).regs = s.regs := rfl
@[simp] theorem setKwKey_I (k : KeyIx) : (s.setKwKey k).I = s.I := rfl
@[simp] theorem setKwKey_pc (k : KeyIx) : (s.setKwKey k).pc = s.pc := rfl
@[simp] theorem setKwKey_stack (k : KeyIx) : (s.setKwKey k).stack = s.stack := rfl
@[simp] theorem setKwKey_sp (k : KeyIx) : (s.setKwKey k).sp = s.sp := rfl
@[simp] theorem setKwKey_dt (k : KeyIx) : (s.setKwKey k).dt = s.dt := rfl
@[simp] theorem setKwKey_st (k : KeyIx) : (s.setKwKey k).st = s.st := rfl
@[simp] theorem setKwKey_disp (k : KeyIx) : (s.setKwKey k).disp = s.disp := rfl
@[simp] theorem setKwKey_key (k : KeyIx) : (s.setKwKey k).key = s.key := rfl
@[simp] theorem setKwKey_runState (k : KeyIx) : (s.setKwKey k).runState = s.runState := rfl
@[simp] theorem setKwKey_haltReason (k : KeyIx) : (s.setKwKey k).haltReason = s.haltReason := rfl
@[simp] theorem setKwKey_kwState (k : KeyIx) : (s.setKwKey k).kwState = s.kwState := rfl
@[simp] theorem setKwKey_kwKey (k : KeyIx) : (s.setKwKey k).kwKey = k := rfl
@[simp] theorem setKwKey_phase (k : KeyIx) : (s.setKwKey k).phase = s.phase := rfl
@[simp] theorem setKwKey_inputs (k : KeyIx) : (s.setKwKey k).inputs = s.inputs := rfl
@[simp] theorem setKwKey_draws (k : KeyIx) : (s.setKwKey k).draws = s.draws := rfl
@[simp] theorem setKwKey_V (k : KeyIx) (q : Reg) : (s.setKwKey k).V q = s.V q := rfl
@[simp] theorem setKwKey_byteAt (k : KeyIx) {m : Nat} (c : BitVec m) : (s.setKwKey k).byteAt c = s.byteAt c := rfl
@[simp] theorem setKwKey_keyDown (k : KeyIx) (j : KeyIx) : (s.setKwKey k).keyDown j = s.keyDown j := rfl

/-! ## setPhase -/

@[simp] theorem setPhase_mem (ph : Phase) : (s.setPhase ph).mem = s.mem := rfl
@[simp] theorem setPhase_regs (ph : Phase) : (s.setPhase ph).regs = s.regs := rfl
@[simp] theorem setPhase_I (ph : Phase) : (s.setPhase ph).I = s.I := rfl
@[simp] theorem setPhase_pc (ph : Phase) : (s.setPhase ph).pc = s.pc := rfl
@[simp] theorem setPhase_stack (ph : Phase) : (s.setPhase ph).stack = s.stack := rfl
@[simp] theorem setPhase_sp (ph : Phase) : (s.setPhase ph).sp = s.sp := rfl
@[simp] theorem setPhase_dt (ph : Phase) : (s.setPhase ph).dt = s.dt := rfl
@[simp] theorem setPhase_st (ph : Phase) : (s.setPhase ph).st = s.st := rfl
@[simp] theorem setPhase_disp (ph : Phase) : (s.setPhase ph).disp = s.disp := rfl
@[simp] theorem setPhase_key (ph : Phase) : (s.setPhase ph).key = s.key := rfl
@[simp] theorem setPhase_runState (ph : Phase) : (s.setPhase ph).runState = s.runState := rfl
@[simp] theorem setPhase_haltReason (ph : Phase) : (s.setPhase ph).haltReason = s.haltReason := rfl
@[simp] theorem setPhase_kwState (ph : Phase) : (s.setPhase ph).kwState = s.kwState := rfl
@[simp] theorem setPhase_kwKey (ph : Phase) : (s.setPhase ph).kwKey = s.kwKey := rfl
@[simp] theorem setPhase_phase (ph : Phase) : (s.setPhase ph).phase = ph := rfl
@[simp] theorem setPhase_inputs (ph : Phase) : (s.setPhase ph).inputs = s.inputs := rfl
@[simp] theorem setPhase_draws (ph : Phase) : (s.setPhase ph).draws = s.draws := rfl
@[simp] theorem setPhase_V (ph : Phase) (q : Reg) : (s.setPhase ph).V q = s.V q := rfl
@[simp] theorem setPhase_byteAt (ph : Phase) {m : Nat} (c : BitVec m) : (s.setPhase ph).byteAt c = s.byteAt c := rfl
@[simp] theorem setPhase_keyDown (ph : Phase) (j : KeyIx) : (s.setPhase ph).keyDown j = s.keyDown j := rfl

/-! ## setInputs -/

@[simp] theorem setInputs_mem (l : List FrameInput) : (s.setInputs l).mem = s.mem := rfl
@[simp] theorem setInputs_regs (l : List FrameInput) : (s.setInputs l).regs = s.regs := rfl
@[simp] theorem setInputs_I (l : List FrameInput) : (s.setInputs l).I = s.I := rfl
@[simp] theorem setInputs_pc (l : List FrameInput) : (s.setInputs l).pc = s.pc := rfl
@[simp] theorem setInputs_stack (l : List FrameInput) : (s.setInputs l).stack = s.stack := rfl
@[simp] theorem setInputs_sp (l : List FrameInput) : (s.setInputs l).sp = s.sp := rfl
@[simp] theorem setInputs_dt (l : List FrameInput) : (s.setInputs l).dt = s.dt := rfl
@[simp] theorem setInputs_st (l : List FrameInput) : (s.setInputs l).st = s.st := rfl
@[simp] theorem setInputs_disp (l : List FrameInput) : (s.setInputs l).disp = s.disp := rfl
@[simp] theorem setInputs_key (l : List FrameInput) : (s.setInputs l).key = s.key := rfl
@[simp] theorem setInputs_runState (l : List FrameInput) : (s.setInputs l).runState = s.runState := rfl
@[simp] theorem setInputs_haltReason (l : List FrameInput) : (s.setInputs l).haltReason = s.haltReason := rfl
@[simp] theorem setInputs_kwState (l : List FrameInput) : (s.setInputs l).kwState = s.kwState := rfl
@[simp] theorem setInputs_kwKey (l : List FrameInput) : (s.setInputs l).kwKey = s.kwKey := rfl
@[simp] theorem setInputs_phase (l : List FrameInput) : (s.setInputs l).phase = s.phase := rfl
@[simp] theorem setInputs_inputs (l : List FrameInput) : (s.setInputs l).inputs = l := rfl
@[simp] theorem setInputs_draws (l : List FrameInput) : (s.setInputs l).draws = s.draws := rfl
@[simp] theorem setInputs_V (l : List FrameInput) (q : Reg) : (s.setInputs l).V q = s.V q := rfl
@[simp] theorem setInputs_byteAt (l : List FrameInput) {m : Nat} (c : BitVec m) : (s.setInputs l).byteAt c = s.byteAt c := rfl
@[simp] theorem setInputs_keyDown (l : List FrameInput) (j : KeyIx) : (s.setInputs l).keyDown j = s.keyDown j := rfl

/-! ## countDraw -/

@[simp] theorem countDraw_mem : (s.countDraw).mem = s.mem := rfl
@[simp] theorem countDraw_regs : (s.countDraw).regs = s.regs := rfl
@[simp] theorem countDraw_I : (s.countDraw).I = s.I := rfl
@[simp] theorem countDraw_pc : (s.countDraw).pc = s.pc := rfl
@[simp] theorem countDraw_stack : (s.countDraw).stack = s.stack := rfl
@[simp] theorem countDraw_sp : (s.countDraw).sp = s.sp := rfl
@[simp] theorem countDraw_dt : (s.countDraw).dt = s.dt := rfl
@[simp] theorem countDraw_st : (s.countDraw).st = s.st := rfl
@[simp] theorem countDraw_disp : (s.countDraw).disp = s.disp := rfl
@[simp] theorem countDraw_key : (s.countDraw).key = s.key := rfl
@[simp] theorem countDraw_runState : (s.countDraw).runState = s.runState := rfl
@[simp] theorem countDraw_haltReason : (s.countDraw).haltReason = s.haltReason := rfl
@[simp] theorem countDraw_kwState : (s.countDraw).kwState = s.kwState := rfl
@[simp] theorem countDraw_kwKey : (s.countDraw).kwKey = s.kwKey := rfl
@[simp] theorem countDraw_phase : (s.countDraw).phase = s.phase := rfl
@[simp] theorem countDraw_inputs : (s.countDraw).inputs = s.inputs := rfl
@[simp] theorem countDraw_draws : (s.countDraw).draws = s.draws + 1 := rfl
@[simp] theorem countDraw_V (q : Reg) : (s.countDraw).V q = s.V q := rfl
@[simp] theorem countDraw_byteAt {m : Nat} (c : BitVec m) : (s.countDraw).byteAt c = s.byteAt c := rfl
@[simp] theorem countDraw_keyDown (j : KeyIx) : (s.countDraw).keyDown j = s.keyDown j := rfl

/-! ## Reading back what an update wrote -/

@[simp] theorem setV_V (r : Reg) (b : VReg) (q : Reg) : (s.setV r b).V q = if q = r then b else s.V q := by
  unfold setV V
  rw [Vector.getElem_set]
  by_cases h : q = r
  · simp [h]
  · have : r.toNat ≠ q.toNat := fun e => h (BitVec.eq_of_toNat_eq e.symm)
    simp [h, this]

@[simp] theorem setKey_keyDown (k : KeyIx) (b : Bool) (j : KeyIx) :
    (s.setKey k b).keyDown j = if j = k then b else s.keyDown j := by
  unfold setKey keyDown
  rw [Vector.getElem_set]
  by_cases h : j = k
  · simp [h]
  · have : k.toNat ≠ j.toNat := fun e => h (BitVec.eq_of_toNat_eq e.symm)
    simp [h, this]

/-- A skip changes the pc and nothing else. -/
theorem skipIf_eq (c : Bool) : s.skipIf c = s.setPc (if c then s.pc + 2#16 else s.pc) := by
  cases c <;> rfl

/-- Every state is what its registers, read one by one, say: two states with equal reads have equal register files. -/
theorem regs_eq_of_V {s t : State} (h : ∀ r, t.V r = s.V r) : t.regs = s.regs := by
  apply Vector.ext
  intro i hi
  have := h (BitVec.ofNat 4 i)
  have e : (BitVec.ofNat 4 i).toNat = i := by
    have hi' : i < 16 := hi
    simp only [BitVec.toNat_ofNat]
    omega
  simpa [V, e] using this

end State

end Sys2Proof.Machine
end

