-- ==== Sys2Proof/Laws/Memory.lean ====
section
/-! SUPPORT. The laws of memory: read after write, and the canonical form kept by every memory operation. -/

namespace Sys2Proof.Machine.Memory

/-! ## Read after write -/

theorem lookup_put_same (m : Memory) (k : Nat) (b : Byte) (h : lookup m k = none) :
    (lookup (put m k b) k).getD (resetByte k) = b := by
  unfold put
  split
  · simp [*]
  · simp [lookup]

theorem lookup_put_other (m : Memory) {k j : Nat} (b : Byte) (h : k ≠ j) : lookup (put m k b) j = lookup m j := by
  unfold put
  split
  · rfl
  · simp [lookup, h]

/-- Nothing below the bound of a canonical list is listed. -/
theorem lookup_eq_none_of_lt {lo k : Nat} {m : Memory} (h : wfFrom lo m = true) (hk : k < lo) : lookup m k = none := by
  induction m generalizing lo with
  | nil => rfl
  | cons c m ih =>
    obtain ⟨a, b⟩ := c
    simp only [wfFrom, Bool.and_eq_true, decide_eq_true_eq] at h
    obtain ⟨⟨⟨h1, -⟩, -⟩, h2⟩ := h
    have : a ≠ k := by omega
    simp [lookup, this, ih h2 (by omega)]

theorem read_write_other (m : Memory) {k j : Nat} (b : Byte) (h : k ≠ j) : (m.write k b).read j = m.read j := by
  unfold read
  congr 1
  induction m with
  | nil => simp [write, lookup_put_other, h]
  | cons c m ih =>
    obtain ⟨a, d⟩ := c
    simp only [write]
    split
    · exact lookup_put_other _ _ h
    · split
      · subst k
        rw [lookup_put_other _ _ h]
        simp [lookup, h]
      · simp only [lookup, ih]

theorem read_write_same {lo : Nat} {m : Memory} (hm : wfFrom lo m = true) (k : Nat) (b : Byte) :
    (m.write k b).read k = b := by
  unfold read
  induction m generalizing lo with
  | nil => exact lookup_put_same _ _ _ rfl
  | cons c m ih =>
    obtain ⟨a, d⟩ := c
    have hm' := hm
    simp only [wfFrom, Bool.and_eq_true, decide_eq_true_eq] at hm'
    obtain ⟨⟨⟨h1, -⟩, -⟩, h2⟩ := hm'
    simp only [write]
    split
    · apply lookup_put_same
      have : a ≠ k := by omega
      simp only [lookup, this, if_false]
      exact lookup_eq_none_of_lt h2 (by omega)
    · split
      · subst k
        exact lookup_put_same _ _ _ (lookup_eq_none_of_lt h2 (by omega))
      · have : a ≠ k := by omega
        simp only [lookup, this, if_false]
        exact ih h2

/-! ## The canonical form -/

theorem wfFrom_mono {lo lo' : Nat} {m : Memory} (h : wfFrom lo m = true) (hl : lo' ≤ lo) : wfFrom lo' m = true := by
  cases m with
  | nil => rfl
  | cons c m =>
    obtain ⟨a, b⟩ := c
    simp only [wfFrom, Bool.and_eq_true, decide_eq_true_eq] at h ⊢
    exact ⟨⟨⟨by omega, h.1.1.2⟩, h.1.2⟩, h.2⟩

theorem wfFrom_put {lo k : Nat} {m : Memory} (b : Byte) (h : wfFrom (k + 1) m = true) (hl : lo ≤ k)
    (hk : k < Config.memSize) : wfFrom lo (put m k b) = true := by
  unfold put
  split
  · exact wfFrom_mono h (by omega)
  · simp_all [wfFrom]

theorem wfFrom_write {lo k : Nat} {m : Memory} (b : Byte) (h : wfFrom lo m = true) (hl : lo ≤ k)
    (hk : k < Config.memSize) : wfFrom lo (m.write k b) = true := by
  induction m generalizing lo with
  | nil => exact wfFrom_put b rfl hl hk
  | cons c m ih =>
    obtain ⟨a, d⟩ := c
    have h' := h
    simp only [wfFrom, Bool.and_eq_true, decide_eq_true_eq] at h'
    obtain ⟨⟨⟨h1, h2⟩, h3⟩, h4⟩ := h'
    simp only [write]
    split
    · refine wfFrom_put b ?_ hl hk
      simp only [wfFrom, Bool.and_eq_true, decide_eq_true_eq]
      exact ⟨⟨⟨by omega, h2⟩, h3⟩, h4⟩
    · split
      · subst k
        exact wfFrom_put b h4 hl hk
      · simp only [wfFrom, Bool.and_eq_true, decide_eq_true_eq]
        exact ⟨⟨⟨h1, h2⟩, h3⟩, ih h4 (by omega)⟩

/-- A write keeps the canonical form. -/
theorem wf_write {m : Memory} {k : Nat} (b : Byte) (h : m.wf = true) (hk : k < Config.memSize) :
    (m.write k b).wf = true := wfFrom_write b h (Nat.zero_le _) hk

/-- In the canonical form, a byte just written reads as what was written. -/
theorem read_write {m : Memory} (h : m.wf = true) (k j : Nat) (b : Byte) :
    (m.write k b).read j = if j = k then b else m.read j := by
  split
  · subst j; exact read_write_same h k b
  · exact read_write_other m b (by omega)

@[simp] theorem read_nil (k : Nat) : read [] k = resetByte k := rfl

@[simp] theorem wf_nil : wf [] = true := rfl

end Sys2Proof.Machine.Memory

namespace Sys2Proof.Machine

theorem cellIndex_lt {w : Nat} (a : BitVec w) : cellIndex a < Config.memSize := Nat.mod_lt _ (by decide)

/-- A byte written through an address keeps the canonical form. -/
theorem State.setByte_wf {w : Nat} {s : State} (a : BitVec w) (b : Byte) (h : s.mem.wf = true) : (s.setByte a b).mem.wf = true :=
  Memory.wf_write b h (cellIndex_lt a)

/-- Read after write through addresses (R63): two addresses of one cell are one byte. -/
theorem State.setByte_byteAt {w w' : Nat} {s : State} (h : s.mem.wf = true) (a : BitVec w) (c : BitVec w') (b : Byte) :
    (s.setByte a b).byteAt c = if cellIndex c = cellIndex a then b else s.byteAt c :=
  Memory.read_write h _ _ _

/-- A write leaves every other cell alone, whatever the form of the memory. -/
theorem State.setByte_byteAt_other {w w' : Nat} (s : State) {a : BitVec w} {c : BitVec w'} (b : Byte) (h : cellIndex a ≠ cellIndex c) :
    (s.setByte a b).byteAt c = s.byteAt c :=
  Memory.read_write_other _ _ h

end Sys2Proof.Machine
end

