-- ==== Sys2Proof/Laws/Ops.lean ====
section
/-! SUPPORT. What each shared operation can do, said once: the guard, the stack, the flag writers, the blocks of bytes, the
blitter, the poll. -/

namespace Sys2Proof.Machine

/-! ## The guard of R204 -/

@[simp] theorem firstOutOfRange_wrap {w : Nat} (as : List (BitVec w)) : firstOutOfRange .wrap as = none := by
  simp [firstOutOfRange, outOfRange]

@[simp] theorem guarded_wrap {w : Nat} (as : List (BitVec w)) (s : State) (go : State → Result) : s.guarded .wrap as go = go s := by
  simp [State.guarded]

/-- On this hardware the guard lets every instruction go on. -/
@[simp] theorem guarded_addrPolicy {w : Nat} (as : List (BitVec w)) (s : State) (go : State → Result) :
    s.guarded addrPolicy as go = go s := guarded_wrap as s go

/-- The guard either lets the instruction go on, with every address in range, or halts the core at the first offending one. -/
theorem guarded_cases {w : Nat} (p : AddrPolicy) (as : List (BitVec w)) (s : State) (go : State → Result) :
    (firstOutOfRange p as = none ∧ s.guarded p as go = go s) ∨
    ∃ a, firstOutOfRange p as = some a ∧ s.guarded p as go = .next (s.halt (.addressRange a.toNat)) := by
  unfold State.guarded
  cases firstOutOfRange p as with
  | none => exact .inl ⟨rfl, rfl⟩
  | some a => exact .inr ⟨a, rfl, rfl⟩

/-- STEP on this hardware: the meaning of the fetched word on the advanced state (R72). -/
theorem instrStep_eq (s : State) : instrStep s = exec (decode s.fetch) s.advance := by
  simp [instrStep, instrStepWith]

/-! ## The return stack -/

/-- A push fails exactly on a full stack, and else writes the entry at `sp` and counts it. -/
theorem push_cases (s : State) (ret : StackEntry) :
    (s.sp.val = Config.stackDepth ∧ s.push ret = none) ∨
    ∃ (h : s.sp.val < Config.stackDepth) (t : State), s.push ret = some t ∧
      t = { s with stack := s.stack.set s.sp.val ret h, sp := ⟨s.sp.val + 1, Nat.succ_lt_succ h⟩ } := by
  unfold State.push
  split
  · next h => exact .inr ⟨h, _, rfl, rfl⟩
  · next h => exact .inl ⟨by have := s.sp.isLt; omega, rfl⟩

/-- A pop fails exactly on an empty stack, and else yields the top entry and uncounts it. -/
theorem pop_cases (s : State) :
    (s.sp.val = 0 ∧ s.pop = none) ∨
    ∃ (h : 0 < s.sp.val) (t : State), s.pop = some (s.stack[s.sp.val - 1]'(by have := s.sp.isLt; omega), t) ∧
      t = { s with sp := ⟨s.sp.val - 1, by have := s.sp.isLt; omega⟩ } := by
  unfold State.pop
  split
  · next h => exact .inr ⟨h, _, rfl, rfl⟩
  · next h => exact .inl ⟨by omega, rfl⟩

/-! ## The flag writers -/

@[simp] theorem setResultFlag_V (s : State) (x : Reg) (b : VReg) (c : Bool) (r : Reg) :
    (s.setResultFlag x b c).V r = if r = .vf then flagByte c else if r = x then b else s.V r := by
  simp [State.setResultFlag]

/-- A flag is 0 or 1 (R23). -/
theorem flagByte_cases (c : Bool) : flagByte c = 0#8 ∨ flagByte c = 1#8 := by
  cases c
  · exact .inl rfl
  · exact .inr rfl

/-! ## Blocks of bytes -/

/-- The bytes of a block of at most 4096 lie in cells of their own, whatever its base. -/
theorem effAddr_cell_inj (base : IReg) {j k : Nat} (hj : j < Config.memSize) (hk : k < Config.memSize)
    (h : cellIndex (effAddr base j) = cellIndex (effAddr base k)) : j = k := by
  have hb := base.isLt
  simp only [cellIndex, effAddr, BitVec.toNat_add, BitVec.toNat_ofNat, pow_iWidth] at h hj hk hb
  simp only [Config.memSize] at h hj hk
  omega

/-- A block store changes memory only. -/
theorem storeFrom_eq (base : IReg) (k : Nat) (bs : List Byte) (s : State) :
    storeFrom base k bs s = { s with mem := (storeFrom base k bs s).mem } := by
  induction bs generalizing k s with
  | nil => rfl
  | cons b bs ih => simp only [storeFrom]; rw [ih]; rfl

/-- A block store keeps the canonical form. -/
theorem storeFrom_wf (base : IReg) (k : Nat) (bs : List Byte) {s : State} (h : s.mem.wf = true) :
    (storeFrom base k bs s).mem.wf = true := by
  induction bs generalizing k s with
  | nil => exact h
  | cons b bs ih => exact ih _ (State.setByte_wf _ _ h)

/-- A byte outside the block reads as before. -/
theorem storeFrom_byteAt_other (base : IReg) (k : Nat) (bs : List Byte) (s : State) {w : Nat} (c : BitVec w)
    (h : ∀ j, j < bs.length → cellIndex (effAddr base (k + j)) ≠ cellIndex c) :
    (storeFrom base k bs s).byteAt c = s.byteAt c := by
  induction bs generalizing k s with
  | nil => rfl
  | cons b bs ih =>
    simp only [storeFrom]
    rw [ih]
    · exact State.setByte_byteAt_other _ _ (by simpa using h 0 (by simp))
    · intro j hj
      have := h (j + 1) (by simpa using hj)
      rwa [Nat.add_right_comm, Nat.add_assoc] at *

/-- A byte of the block reads as what was stored there. -/
theorem storeFrom_byteAt (base : IReg) (k : Nat) (bs : List Byte) {s : State} (hs : s.mem.wf = true) (j : Nat)
    (hj : j < bs.length) (hlen : k + bs.length ≤ Config.memSize) :
    (storeFrom base k bs s).byteAt (effAddr base (k + j)) = bs[j] := by
  induction bs generalizing k s j with
  | nil => simp at hj
  | cons b bs ih =>
    simp only [storeFrom]
    simp only [List.length_cons] at hj hlen
    cases j with
    | zero =>
      rw [storeFrom_byteAt_other]
      · simpa using (State.setByte_byteAt hs (effAddr base k) (effAddr base k) b)
      · intro i hi h
        have := effAddr_cell_inj base (by omega) (by omega) h
        omega
    | succ j =>
      have := ih (k + 1) (State.setByte_wf (effAddr base k) b hs) j (by omega) (by omega)
      rw [show k + (j + 1) = k + 1 + j by omega]
      simpa using this

theorem mem_regsUpTo (x r : Reg) : r ∈ regsUpTo x ↔ r.toNat ≤ x.toNat := by
  have hr := r.isLt
  have hx := x.isLt
  simp only [regsUpTo, List.mem_map, List.mem_range]
  constructor
  · rintro ⟨k, hk, rfl⟩
    simp only [BitVec.toNat_ofNat]
    omega
  · intro h
    exact ⟨r.toNat, by omega, by simp⟩

theorem length_regsUpTo (x : Reg) : (regsUpTo x).length = x.toNat + 1 := by simp [regsUpTo]

theorem getElem_regsUpTo (x : Reg) (k : Nat) (h : k < (regsUpTo x).length) : (regsUpTo x)[k] = BitVec.ofNat 4 k := by
  simp [regsUpTo]

/-- A block load changes registers only. -/
theorem loadRegs_eq (rs : List Reg) (s : State) : loadRegs rs s = { s with regs := (loadRegs rs s).regs } := by
  unfold loadRegs
  induction rs generalizing s with
  | nil => rfl
  | cons r rs ih => simp only [List.foldl_cons]; rw [ih]; rfl

/-- A loaded register holds the byte at I plus its own number, read from the memory before the load. -/
theorem loadRegs_V (rs : List Reg) (s : State) (r : Reg) :
    (loadRegs rs s).V r = if r ∈ rs then s.byteAt (effAddr s.I r.toNat) else s.V r := by
  induction rs generalizing s with
  | nil => simp [loadRegs]
  | cons q rs ih =>
    have : loadRegs (q :: rs) s = loadRegs rs (s.setV q (zext Config.vWidth (s.byteAt (effAddr s.I q.toNat)))) := rfl
    rw [this, ih]
    by_cases h1 : r ∈ rs <;> by_cases h2 : r = q <;> simp [h1, h2]

/-! ## The display -/

theorem Display.cell_of_out (d : Display) {x y : Nat} (h : ¬(x < Config.dispW ∧ y < Config.dispH)) : d.cell x y = false := by
  simp [Display.cell, h]

/-- A flip inverts its own cell and no other. -/
theorem Display.cell_flip (d : Display) (x y px py : Nat) :
    (d.flip x y).cell px py =
      ((d.cell px py) ^^ (decide (px = x) && decide (py = y) && decide (x < Config.dispW) && decide (y < Config.dispH))) := by
  unfold Display.flip Display.cell
  by_cases hp : px < Config.dispW ∧ py < Config.dispH
  · by_cases hx : x < Config.dispW ∧ y < Config.dispH
    · simp only [hp, hx, and_self, dite_true, decide_true, Bool.and_true]
      simp only [Vector.getElem_set]
      by_cases hy : y = py
      · subst hy
        by_cases hxx : x = px
        · subst hxx; simp
        · simp [hxx, Ne.symm hxx]
      · simp [hy, Ne.symm hy]
    · simp only [hp, hx, and_self, dite_true, dite_false]
      by_cases h1 : x < Config.dispW
      · have h2 : ¬ y < Config.dispH := fun h => hx ⟨h1, h⟩
        simp [h2]
      · simp [h1]
  · simp only [hp, dite_false]
    by_cases hx : x < Config.dispW ∧ y < Config.dispH
    · by_cases h1 : px = x
      · by_cases h2 : py = y
        · subst h1; subst h2; exact absurd hx hp
        · simp [h2]
      · simp [h1]
    · by_cases h1 : x < Config.dispW
      · have h2 : ¬ y < Config.dispH := fun h => hx ⟨h1, h⟩
        simp [h2]
      · simp [h1]

/-- Two displays with the same cells are the same display. -/
theorem Display.ext_cell {d e : Display} (h : ∀ x y, x < Config.dispW → y < Config.dispH → d.cell x y = e.cell x y) :
    d = e := by
  apply Vector.ext
  intro y hy
  apply Vector.ext
  intro x hx
  have := h x y hx hy
  simpa [Display.cell, hx, hy] using this

@[simp] theorem Display.cell_clear (x y : Nat) : Display.clear.cell x y = false := by
  unfold Display.cell Display.clear
  split <;> simp

/-- One pixel of the blitter: the cell is inverted by a set sprite bit inside the display, and a cell that was on is a
collision. -/
theorem blitPixel_spec (px py : Nat) (bit : Bool) (dc : Display × Bool) :
    (∀ x y, (blitPixel px py bit dc).1.cell x y =
      (dc.1.cell x y ^^ (decide (x = px) && decide (y = py) && decide (px < Config.dispW) && decide (py < Config.dispH) && bit)))
    ∧ (blitPixel px py bit dc).2 = (dc.2 || (bit && dc.1.cell px py)) := by
  unfold blitPixel
  split
  · next h =>
    obtain ⟨h1, h2, rfl⟩ := h
    refine ⟨fun x y => ?_, by simp⟩
    rw [Display.cell_flip]; simp
  · next h =>
    refine ⟨fun x y => ?_, ?_⟩
    · by_cases h1 : px < Config.dispW
      · by_cases h2 : py < Config.dispH
        · cases bit
          · simp
          · exact absurd ⟨h1, h2, rfl⟩ h
        · rw [decide_eq_false h2]; simp
      · rw [decide_eq_false h1]; simp
    · cases bit
      · simp
      · have h' : ¬(px < Config.dispW ∧ py < Config.dispH) := fun hh => h ⟨hh.1, hh.2, rfl⟩
        simp [Display.cell_of_out _ h']

/-! ## Timers -/

/-- A tick counts a timer down by one and floors it at 0 (R220). -/
theorem toNat_tickDown (b : Byte) : (tickDown b).toNat = b.toNat - 1 := by
  unfold tickDown
  split
  · next h => subst h; rfl
  · next h =>
    have : b.toNat ≠ 0 := fun e => h (BitVec.eq_of_toNat_eq e)
    have := b.isLt
    simp only [BitVec.toNat_sub, BitVec.toNat_ofNat, pow_timerWidth] at *
    omega

/-! ## The input poll -/

/-- Key events change the keypad and nothing else (R225). -/
theorem applyKeys_eq (l : List KeyEvent) (s : State) :
    l.foldl State.applyKey s = { s with key := (l.foldl State.applyKey s).key } := by
  induction l generalizing s with
  | nil => rfl
  | cons e l ih => simp only [List.foldl_cons]; rw [ih]; rfl

/-- A run-state request changes the run state with its reason and nothing else (R216). -/
theorem applyReq_eq (s : State) (r : RunReq) :
    s.applyReq r = { s with runState := (s.applyReq r).runState, haltReason := (s.applyReq r).haltReason } := by
  unfold State.applyReq
  split <;> rfl

/-- A poll changes the keypad, the run state with its reason, the place in the frame and the queue, and nothing else. -/
theorem poll_eq (s : State) : s.poll =
    { s with key := s.poll.key, runState := s.poll.runState, haltReason := s.poll.haltReason,
             phase := Phase.remaining stepsPerFrame, inputs := s.inputs.tail } := by
  unfold State.poll State.applyInput
  rw [applyReq_eq, applyKeys_eq]
  rfl

/-- No poll leaves HALTED or changes the reason (R219). -/
theorem poll_halted {s : State} (h : s.runState = .halted) : s.poll.runState = .halted ∧ s.poll.haltReason = s.haltReason := by
  have e : ∀ t : State, t.runState = .halted → ∀ r, t.applyReq r = t := by
    intro t ht r
    unfold State.applyReq
    rw [ht]
  have k := applyKeys_eq (nextInput s.inputs).keys s
  unfold State.poll State.applyInput
  rw [e _ (by rw [k]; exact h), k]
  exact ⟨h, rfl⟩

/-- The poll does not look at the place in the frame. -/
theorem poll_setPhase (s : State) (ph : Phase) : (s.setPhase ph).poll = s.poll := by
  have hk : ∀ (l : List KeyEvent) (s : State),
      l.foldl State.applyKey (s.setPhase ph) = (l.foldl State.applyKey s).setPhase ph := by
    intro l
    induction l with
    | nil => intro s; rfl
    | cons e l ih => intro s; exact ih (s.applyKey e)
  have hr : ∀ (s : State) (r : RunReq), (s.setPhase ph).applyReq r = (s.applyReq r).setPhase ph := by
    intro s r
    unfold State.applyReq
    simp only [State.setPhase_runState]
    cases s.runState <;> cases r <;> rfl
  unfold State.poll State.applyInput
  rw [hk, hr]
  rfl

end Sys2Proof.Machine
end

