-- ==== Sys2Proof/Laws/Blit.lean ====
section
/-! SUPPORT. What the blitter's loops do, row by row and for a whole sprite (43_display.md R173 to R175). -/

namespace Sys2Proof.Machine

/-- The first `n` pixels of a sprite row: each cell of the row is inverted by its own sprite bit, and the collision records the
cells that were on before. -/
theorem blitPixels_spec (x0 py : Nat) (row : Byte) (n : Nat) (dc : Display × Bool) :
    let r := (List.range n).foldl (fun dc b => blitPixel (x0 + b) py (spriteBit row b) dc) dc
    (∀ x y, r.1.cell x y = (dc.1.cell x y ^^ (decide (y = py) && decide (x0 ≤ x) && decide (x < x0 + n) &&
      decide (x < Config.dispW) && decide (y < Config.dispH) && spriteBit row (x - x0))))
    ∧ (r.2 = true ↔ dc.2 = true ∨ ∃ b, b < n ∧ spriteBit row b = true ∧ dc.1.cell (x0 + b) py = true) := by
  induction n with
  | zero =>
    refine ⟨fun x y => ?_, by simp⟩
    by_cases h : x0 ≤ x
    · have : ¬ x < x0 + 0 := by omega
      simp only [List.range_zero, List.foldl_nil, this, decide_false, Bool.and_false, Bool.false_and, Bool.xor_false]
    · simp [h]
  | succ n ih =>
    simp only [List.range_succ, List.foldl_append, List.foldl_cons, List.foldl_nil]
    obtain ⟨ih1, ih2⟩ := ih
    obtain ⟨p1, p2⟩ := blitPixel_spec (x0 + n) py (spriteBit row n)
      ((List.range n).foldl (fun dc b => blitPixel (x0 + b) py (spriteBit row b) dc) dc)
    refine ⟨fun x y => ?_, ?_⟩
    · rw [p1, ih1]
      by_cases hx : x = x0 + n
      · subst hx
        have h1 : ¬ x0 + n < x0 + n := by omega
        have h2 : x0 + n < x0 + (n + 1) := by omega
        have h3 : x0 + n - x0 = n := by omega
        have h4 : x0 ≤ x0 + n := by omega
        by_cases hy : y = py
        · subst hy; simp [h2, h3, h4]
        · simp [hy]
      · have : (x < x0 + (n + 1)) = (x < x0 + n) := by apply propext; omega
        simp [hx, this]
    · rw [p2, Bool.or_eq_true, ih2, Bool.and_eq_true, ih1]
      have h1 : ¬ x0 + n < x0 + n := by omega
      simp only [h1, decide_false, Bool.and_false, Bool.false_and, Bool.xor_false]
      constructor
      · rintro ((h | ⟨b, hb, h⟩) | h)
        · exact .inl h
        · exact .inr ⟨b, by omega, h⟩
        · exact .inr ⟨n, by omega, h⟩
      · rintro (h | ⟨b, hb, h⟩)
        · exact .inl (.inl h)
        · by_cases e : b = n
          · subst e; exact .inr h
          · exact .inl (.inr ⟨b, by omega, h⟩)

/-- A whole sprite: each cell is inverted by the sprite's pixel there, and the collision records the pixels that met a cell that
was on before the draw. -/
theorem blitRows_spec (x0 : Nat) (py : Nat) (rows : List Byte) (dc : Display × Bool) :
    (∀ x y, (blitRows x0 py rows dc).1.cell x y = (dc.1.cell x y ^^ spritePixel x0 py rows x y))
    ∧ ((blitRows x0 py rows dc).2 = true ↔
      dc.2 = true ∨ ∃ x y, spritePixel x0 py rows x y = true ∧ dc.1.cell x y = true) := by
  induction rows generalizing py dc with
  | nil => simp [blitRows, spritePixel]
  | cons row rows ih =>
    simp only [blitRows]
    obtain ⟨r1, r2⟩ := blitPixels_spec x0 py row 8 dc
    obtain ⟨i1, i2⟩ := ih (py + 1) (blitRow x0 py row dc)
    have key : ∀ x y, spritePixel x0 py (row :: rows) x y =
        ((decide (y = py) && decide (x0 ≤ x) && decide (x < x0 + 8) && decide (x < Config.dispW) && decide (y < Config.dispH) &&
          spriteBit row (x - x0)) ^^ spritePixel x0 (py + 1) rows x y) := by
      intro x y
      unfold spritePixel
      rcases Nat.lt_trichotomy y py with h | h | h
      · have h1 : ¬ py ≤ y := by omega
        have h2 : ¬ py + 1 ≤ y := by omega
        have h3 : y ≠ py := by omega
        simp [h1, h2, h3]
      · subst h
        have h2 : ¬ y + 1 ≤ y := by omega
        simp [h2]
        generalize decide (x < Config.dispW) = a, decide (y < Config.dispH) = b, decide (x0 ≤ x) = c, decide (x < x0 + 8) = d
        cases a <;> cases b <;> cases c <;> cases d <;> simp
      · have h1 : py ≤ y := by omega
        have h2 : py + 1 ≤ y := by omega
        have h3 : y ≠ py := by omega
        have h4 : y - py = (y - (py + 1)) + 1 := by omega
        simp [h1, h2, h3, h4]
    have hcell : ∀ x y, (blitRow x0 py row dc).1.cell x y = (dc.1.cell x y ^^ (decide (y = py) && decide (x0 ≤ x) &&
        decide (x < x0 + 8) && decide (x < Config.dispW) && decide (y < Config.dispH) && spriteBit row (x - x0))) := r1
    have hcol : (blitRow x0 py row dc).2 = true ↔
        dc.2 = true ∨ ∃ b, b < 8 ∧ spriteBit row b = true ∧ dc.1.cell (x0 + b) py = true := r2
    refine ⟨fun x y => ?_, ?_⟩
    · rw [i1, hcell, key, Bool.xor_assoc]
    · rw [i2, hcol]
      have later : ∀ x y, spritePixel x0 (py + 1) rows x y = true → y ≠ py := by
        intro x y h e
        subst e
        have h2 : ¬ y + 1 ≤ y := by omega
        simp [spritePixel, h2] at h
      constructor
      · rintro ((h | ⟨b, hb, h, hc⟩) | ⟨x, y, h, hc⟩)
        · exact .inl h
        · refine .inr ⟨x0 + b, py, ?_, hc⟩
          have hin : x0 + b < Config.dispW ∧ py < Config.dispH := by
            by_contra hh
            rw [Display.cell_of_out _ hh] at hc
            exact absurd hc (by simp)
          have h1 : x0 + b < x0 + 8 := by omega
          simp [spritePixel, hin.1, hin.2, h1, h]
        · refine .inr ⟨x, y, ?_, ?_⟩
          · have := later x y h
            rw [key, h]; simp [this]
          · have := later x y h
            rw [hcell] at hc
            simpa [this] using hc
      · rintro (h | ⟨x, y, h, hc⟩)
        · exact .inl (.inl h)
        · by_cases e : y = py
          · subst e
            refine .inl (.inr ⟨x - x0, ?_⟩)
            simp only [spritePixel, Bool.and_eq_true, decide_eq_true_eq] at h
            obtain ⟨⟨⟨⟨-, h3⟩, h4⟩, -⟩, h5⟩ := h
            have e : x0 + (x - x0) = x := by omega
            exact ⟨by omega, by simpa using h5, by rw [e]; exact hc⟩
          · refine .inr ⟨x, y, ?_, ?_⟩
            · rw [key] at h; simpa [e] using h
            · rw [hcell]; simp [e, hc]

end Sys2Proof.Machine
end

