-- ==== Sys2Proof/Laws/Exec.lean ====
section
/-! SUPPORT. What the instructions with a branch or a guard answer on this hardware, said once each, so that a proof over all
instructions cites these and unfolds only the one-line meanings. -/

namespace Sys2Proof.Machine

/-- RET: the popped state at the popped pc, or the halted state. -/
theorem exec_ret_cases (s : State) :
    (s.sp.val = 0 ∧ exec .ret s = .next (s.halt .stackUnderflow)) ∨
    ∃ (h : 0 < s.sp.val), exec .ret s =
      .next { s with sp := ⟨s.sp.val - 1, by have := s.sp.isLt; omega⟩,
                     pc := s.stack[s.sp.val - 1]'(by have := s.sp.isLt; omega) } := by
  rcases pop_cases s with ⟨h, e⟩ | ⟨h, t, e, rfl⟩
  · exact .inl ⟨h, by simp [exec, execRet, e]⟩
  · exact .inr ⟨h, by simp [exec, execRet, e, State.setPc]⟩

/-- CALL: the pushed state at the target, or the halted state. -/
theorem exec_call_cases (nnn : Addr12) (s : State) :
    (s.sp.val = Config.stackDepth ∧ exec (.call nnn) s = .next (s.halt .stackOverflow)) ∨
    ∃ (h : s.sp.val < Config.stackDepth), exec (.call nnn) s =
      .next { s with stack := s.stack.set s.sp.val s.pc h, sp := ⟨s.sp.val + 1, Nat.succ_lt_succ h⟩, pc := zext Config.pcWidth nnn } := by
  rcases push_cases s s.pc with ⟨h, e⟩ | ⟨h, t, e, rfl⟩
  · exact .inl ⟨h, by simp [exec, execCall, e]⟩
  · exact .inr ⟨h, by simp [exec, execCall, e, State.setPc]⟩

/-- DRW: the blitted display, then VF. -/
theorem exec_drw (x y : Reg) (n : Nibble) (s : State) :
    exec (.drw x y n) s = .next ((s.setDisp (blitRows (anchorX (s.V x)) (anchorY (s.V y))
      ((blockAddrs s.I n.toNat).map s.byteAt) (s.disp, false)).1).setV .vf
        (flagByte (blitRows (anchorX (s.V x)) (anchorY (s.V y))
          ((blockAddrs s.I n.toNat).map s.byteAt) (s.disp, false)).2)) := by
  simp only [exec, execDrw, execDrwUnder, guarded_addrPolicy]

/-- LD B: the three digits stored. -/
theorem exec_ldB (x : Reg) (s : State) : exec (.ldB x) s = .next (storeFrom s.I 0 (bcdDigits (s.V x)) s) := by
  simp only [exec, execLdB, execLdBUnder, guarded_addrPolicy]

/-- LD [I], Vx: the registers stored. -/
theorem exec_ldMemVx (x : Reg) (s : State) :
    exec (.ldMemVx x) s = .next (storeFrom s.I 0 ((regsUpTo x).map s.V) s) := by
  simp only [exec, execLdMemVx, execLdMemVxUnder, guarded_addrPolicy, zext_self]

/-- LD Vx, [I]: the registers loaded. -/
theorem exec_ldVxMem (x : Reg) (s : State) : exec (.ldVxMem x) s = .next (loadRegs (regsUpTo x) s) := by
  simp only [exec, execLdVxMem, execLdVxMemUnder, guarded_addrPolicy]

/-- LD Vx, K: a wait, a capture, or the commit (R191). -/
theorem exec_ldVxK_cases (x : Reg) (s : State) :
    exec (.ldVxK x) s = .next s.rewind ∨
    (∃ k, leastKeyDown s = some k ∧ s.kwState = .awaitingPress ∧
      exec (.ldVxK x) s = .next (((s.setKwKey k).setKwState .awaitingRelease).rewind)) ∨
    (s.kwState = .awaitingRelease ∧ s.keyDown s.kwKey = false ∧
      exec (.ldVxK x) s = .next ((s.setV x (keyCode s.kwKey)).setKwState .awaitingPress)) := by
  simp only [exec, execLdVxK]
  cases s.kwState with
  | awaitingPress =>
    cases h : leastKeyDown s with
    | none => exact .inl rfl
    | some k => exact .inr (.inl ⟨k, rfl, rfl, rfl⟩)
  | awaitingRelease =>
    cases h : s.keyDown s.kwKey with
    | true => exact .inl rfl
    | false => exact .inr (.inr ⟨rfl, rfl, rfl⟩)

end Sys2Proof.Machine
end

