-- ==== Sys2Proof/Laws/Fields.lean ====
section
/-! SUPPORT. The fields of a packed word, a word as its fields, and masks on packed words: what proofs about the decoder and the
encoder cite. -/

namespace Sys2Proof

/-! ## The fields of a packed word -/

@[simp] theorem fieldClass_packNNN (c : Nibble) (a : Addr12) : fieldClass (packNNN c a) = c :=
  BitVec.extractLsb'_append_eq_left
@[simp] theorem fieldNNN_packNNN (c : Nibble) (a : Addr12) : fieldNNN (packNNN c a) = a :=
  BitVec.extractLsb'_append_eq_right

@[simp] theorem fieldClass_packXNN (c : Nibble) (x : Reg) (nn : Byte) : fieldClass (packXNN c x nn) = c :=
  BitVec.extractLsb'_append_eq_left
@[simp] theorem fieldX_packXNN (c : Nibble) (x : Reg) (nn : Byte) : fieldX (packXNN c x nn) = x := by
  unfold fieldX packXNN; ext i hi; simp [BitVec.getElem_extractLsb']; grind
@[simp] theorem fieldNN_packXNN (c : Nibble) (x : Reg) (nn : Byte) : fieldNN (packXNN c x nn) = nn := by
  unfold fieldNN packXNN; ext i hi; simp [BitVec.getElem_extractLsb']; grind

@[simp] theorem fieldClass_packXYN (c : Nibble) (x y : Reg) (n : Nibble) : fieldClass (packXYN c x y n) = c :=
  BitVec.extractLsb'_append_eq_left
@[simp] theorem fieldX_packXYN (c : Nibble) (x y : Reg) (n : Nibble) : fieldX (packXYN c x y n) = x := by
  unfold fieldX packXYN; ext i hi; simp [BitVec.getElem_extractLsb']; grind
@[simp] theorem fieldY_packXYN (c : Nibble) (x y : Reg) (n : Nibble) : fieldY (packXYN c x y n) = y := by
  unfold fieldY packXYN; ext i hi; simp [BitVec.getElem_extractLsb']; grind
@[simp] theorem fieldN_packXYN (c : Nibble) (x y : Reg) (n : Nibble) : fieldN (packXYN c x y n) = n := by
  unfold fieldN packXYN; ext i hi; simp [BitVec.getElem_extractLsb']; grind

/-! ## A word is its fields -/

theorem packNNN_fields (w : Word) : packNNN (fieldClass w) (fieldNNN w) = w := by
  unfold packNNN fieldClass fieldNNN; ext i hi
  simp only [BitVec.getElem_append]
  split <;> simp [← BitVec.getLsbD_eq_getElem]
  all_goals grind
theorem packXNN_fields (w : Word) : packXNN (fieldClass w) (fieldX w) (fieldNN w) = w := by
  unfold packXNN fieldClass fieldX fieldNN; ext i hi
  simp only [BitVec.getElem_append]
  repeat' split
  all_goals simp [← BitVec.getLsbD_eq_getElem]
  all_goals grind
theorem packXYN_fields (w : Word) : packXYN (fieldClass w) (fieldX w) (fieldY w) (fieldN w) = w := by
  unfold packXYN fieldClass fieldX fieldY fieldN; ext i hi
  simp only [BitVec.getElem_append]
  repeat' split
  all_goals simp [← BitVec.getLsbD_eq_getElem]
  all_goals grind

/-- The bytes of a word, put together again, are the word (R57). -/
@[simp] theorem wordOfBytes_bytes (w : Word) : wordOfBytes (highByte w) (lowByte w) = w := by
  unfold wordOfBytes highByte lowByte; ext i hi
  simp only [BitVec.getElem_append]
  split <;> simp [← BitVec.getLsbD_eq_getElem]
  all_goals grind

/-! ## A masked word is equal to a row's pattern when the row's fixed digits are the word's -/

theorem packNNN_inj {c c' : Nibble} {a a' : Addr12} : packNNN c a = packNNN c' a' ↔ c = c' ∧ a = a' :=
  ⟨fun h => ⟨by simpa using congrArg fieldClass h, by simpa using congrArg fieldNNN h⟩, by rintro ⟨rfl, rfl⟩; rfl⟩
theorem packXNN_inj {c c' : Nibble} {x x' : Reg} {n n' : Byte} :
    packXNN c x n = packXNN c' x' n' ↔ c = c' ∧ x = x' ∧ n = n' :=
  ⟨fun h => ⟨by simpa using congrArg fieldClass h, by simpa using congrArg fieldX h, by simpa using congrArg fieldNN h⟩,
    by rintro ⟨rfl, rfl, rfl⟩; rfl⟩
theorem packXYN_inj {c c' : Nibble} {x x' y y' : Reg} {n n' : Nibble} :
    packXYN c x y n = packXYN c' x' y' n' ↔ c = c' ∧ x = x' ∧ y = y' ∧ n = n' :=
  ⟨fun h => ⟨by simpa using congrArg fieldClass h, by simpa using congrArg fieldX h, by simpa using congrArg fieldY h,
    by simpa using congrArg fieldN h⟩, by rintro ⟨rfl, rfl, rfl, rfl⟩; rfl⟩

theorem packNNN_and (c c' : Nibble) (a a' : Addr12) : packNNN c a &&& packNNN c' a' = packNNN (c &&& c') (a &&& a') :=
  BitVec.and_append
theorem packXNN_and (c c' : Nibble) (x x' : Reg) (n n' : Byte) :
    packXNN c x n &&& packXNN c' x' n' = packXNN (c &&& c') (x &&& x') (n &&& n') := by
  unfold packXNN; rw [BitVec.and_append, BitVec.and_append]
theorem packXYN_and (c c' : Nibble) (x x' y y' : Reg) (n n' : Nibble) :
    packXYN c x y n &&& packXYN c' x' y' n' = packXYN (c &&& c') (x &&& x') (y &&& y') (n &&& n') := by
  unfold packXYN; rw [BitVec.and_append, BitVec.and_append, BitVec.and_append]

theorem and_ones4 (a : Nibble) : a &&& 15#4 = a := BitVec.and_allOnes
theorem and_ones8 (a : Byte) : a &&& 255#8 = a := BitVec.and_allOnes

theorem and_maskClass (w : Word) (c : Nibble) : w &&& 0xF000#16 = packNNN c 0 ↔ fieldClass w = c := by
  conv_lhs => rw [← packNNN_fields w, show (0xF000#16 : Word) = packNNN 0xF#4 0 from rfl, packNNN_and, packNNN_inj]
  simp [and_ones4]
theorem and_maskClassN (w : Word) (c n : Nibble) :
    w &&& 0xF00F#16 = packXYN c 0 0 n ↔ fieldClass w = c ∧ fieldN w = n := by
  conv_lhs => rw [← packXYN_fields w, show (0xF00F#16 : Word) = packXYN 0xF#4 0 0 0xF#4 from rfl, packXYN_and, packXYN_inj]
  simp [and_ones4]
theorem and_maskClassNN (w : Word) (c : Nibble) (nn : Byte) :
    w &&& 0xF0FF#16 = packXNN c 0 nn ↔ fieldClass w = c ∧ fieldNN w = nn := by
  conv_lhs => rw [← packXNN_fields w, show (0xF0FF#16 : Word) = packXNN 0xF#4 0 0xFF#8 from rfl, packXNN_and, packXNN_inj]
  simp [and_ones4, and_ones8]

end Sys2Proof
end

