-- ==== Sys2Proof/Laws/PerInstr.lean ====
section
/-! SUPPORT. Statements made of every instruction, one lemma a constructor. Family RowMatch: the word of a well-formed
instruction matches the mask and pattern of its own row of R80. -/

namespace Sys2Proof.Laws.RowMatch

/-- The encoding of a well-formed instruction matches its row of R80. -/
def Statement (i : Instr) : Prop := i.wellFormed = true → encode i &&& i.row.mask = i.row.pat

/-- A class-only row. -/
theorem of_class {w : Word} {c : Nibble} (h : fieldClass w = c) : w &&& 0xF000#16 = packNNN c 0 := (and_maskClass w c).2 h
/-- A row fixed by class and N. -/
theorem of_classN {w : Word} {c n : Nibble} (h : fieldClass w = c) (h' : fieldN w = n) :
    w &&& 0xF00F#16 = packXYN c 0 0 n := (and_maskClassN w c n).2 ⟨h, h'⟩
/-- A row fixed by class and NN. -/
theorem of_classNN {w : Word} {c : Nibble} {nn : Byte} (h : fieldClass w = c) (h' : fieldNN w = nn) :
    w &&& 0xF0FF#16 = packXNN c 0 nn := (and_maskClassNN w c nn).2 ⟨h, h'⟩

theorem cls : Statement .cls := fun _ => rfl
theorem ret : Statement .ret := fun _ => rfl
theorem jp (nnn : Addr12) : Statement (.jp nnn) := fun _ =>
  of_class (c := 0x1#4) (by simp [encode])
theorem call (nnn : Addr12) : Statement (.call nnn) := fun _ =>
  of_class (c := 0x2#4) (by simp [encode])
theorem seImm (x : Reg) (nn : Byte) : Statement (.seImm x nn) := fun _ =>
  of_class (c := 0x3#4) (by simp [encode])
theorem sneImm (x : Reg) (nn : Byte) : Statement (.sneImm x nn) := fun _ =>
  of_class (c := 0x4#4) (by simp [encode])
theorem seReg (x y : Reg) : Statement (.seReg x y) := fun _ =>
  of_classN (c := 0x5#4) (n := 0x0#4) (by simp [encode]) (by simp [encode])
theorem ldImm (x : Reg) (nn : Byte) : Statement (.ldImm x nn) := fun _ =>
  of_class (c := 0x6#4) (by simp [encode])
theorem addImm (x : Reg) (nn : Byte) : Statement (.addImm x nn) := fun _ =>
  of_class (c := 0x7#4) (by simp [encode])
theorem ldReg (x y : Reg) : Statement (.ldReg x y) := fun _ =>
  of_classN (c := 0x8#4) (n := 0x0#4) (by simp [encode]) (by simp [encode])
theorem orReg (x y : Reg) : Statement (.orReg x y) := fun _ =>
  of_classN (c := 0x8#4) (n := 0x1#4) (by simp [encode]) (by simp [encode])
theorem andReg (x y : Reg) : Statement (.andReg x y) := fun _ =>
  of_classN (c := 0x8#4) (n := 0x2#4) (by simp [encode]) (by simp [encode])
theorem xorReg (x y : Reg) : Statement (.xorReg x y) := fun _ =>
  of_classN (c := 0x8#4) (n := 0x3#4) (by simp [encode]) (by simp [encode])
theorem addReg (x y : Reg) : Statement (.addReg x y) := fun _ =>
  of_classN (c := 0x8#4) (n := 0x4#4) (by simp [encode]) (by simp [encode])
theorem sub (x y : Reg) : Statement (.sub x y) := fun _ =>
  of_classN (c := 0x8#4) (n := 0x5#4) (by simp [encode]) (by simp [encode])
theorem shr (x y : Reg) : Statement (.shr x y) := fun _ =>
  of_classN (c := 0x8#4) (n := 0x6#4) (by simp [encode]) (by simp [encode])
theorem subn (x y : Reg) : Statement (.subn x y) := fun _ =>
  of_classN (c := 0x8#4) (n := 0x7#4) (by simp [encode]) (by simp [encode])
theorem shl (x y : Reg) : Statement (.shl x y) := fun _ =>
  of_classN (c := 0x8#4) (n := 0xE#4) (by simp [encode]) (by simp [encode])
theorem sneReg (x y : Reg) : Statement (.sneReg x y) := fun _ =>
  of_classN (c := 0x9#4) (n := 0x0#4) (by simp [encode]) (by simp [encode])
theorem ldI (nnn : Addr12) : Statement (.ldI nnn) := fun _ =>
  of_class (c := 0xA#4) (by simp [encode])
theorem jpV0 (nnn : Addr12) : Statement (.jpV0 nnn) := fun _ =>
  of_class (c := 0xB#4) (by simp [encode])
theorem rnd (x : Reg) (nn : Byte) : Statement (.rnd x nn) := fun _ =>
  of_class (c := 0xC#4) (by simp [encode])
theorem drw (x y : Reg) (n : Nibble) : Statement (.drw x y n) := fun _ =>
  of_class (c := 0xD#4) (by simp [encode])
theorem skp (x : Reg) : Statement (.skp x) := fun _ =>
  of_classNN (c := 0xE#4) (nn := 0x9E#8) (by simp [encode]) (by simp [encode])
theorem sknp (x : Reg) : Statement (.sknp x) := fun _ =>
  of_classNN (c := 0xE#4) (nn := 0xA1#8) (by simp [encode]) (by simp [encode])
theorem ldVxDt (x : Reg) : Statement (.ldVxDt x) := fun _ =>
  of_classNN (c := 0xF#4) (nn := 0x07#8) (by simp [encode]) (by simp [encode])
theorem ldVxK (x : Reg) : Statement (.ldVxK x) := fun _ =>
  of_classNN (c := 0xF#4) (nn := 0x0A#8) (by simp [encode]) (by simp [encode])
theorem ldDtVx (x : Reg) : Statement (.ldDtVx x) := fun _ =>
  of_classNN (c := 0xF#4) (nn := 0x15#8) (by simp [encode]) (by simp [encode])
theorem ldStVx (x : Reg) : Statement (.ldStVx x) := fun _ =>
  of_classNN (c := 0xF#4) (nn := 0x18#8) (by simp [encode]) (by simp [encode])
theorem addI (x : Reg) : Statement (.addI x) := fun _ =>
  of_classNN (c := 0xF#4) (nn := 0x1E#8) (by simp [encode]) (by simp [encode])
theorem ldF (x : Reg) : Statement (.ldF x) := fun _ =>
  of_classNN (c := 0xF#4) (nn := 0x29#8) (by simp [encode]) (by simp [encode])
theorem ldB (x : Reg) : Statement (.ldB x) := fun _ =>
  of_classNN (c := 0xF#4) (nn := 0x33#8) (by simp [encode]) (by simp [encode])
theorem ldMemVx (x : Reg) : Statement (.ldMemVx x) := fun _ =>
  of_classNN (c := 0xF#4) (nn := 0x55#8) (by simp [encode]) (by simp [encode])
theorem ldVxMem (x : Reg) : Statement (.ldVxMem x) := fun _ =>
  of_classNN (c := 0xF#4) (nn := 0x65#8) (by simp [encode]) (by simp [encode])
theorem unrecognized (w : Word) : Statement (.unrecognized w) := fun _ => by simp [Instr.row]

end Sys2Proof.Laws.RowMatch
end

