-- ==== Sys2Proof/Tests/Slice0.lean ====
section
/-! SUPPORT. The model's own tests: ill-formed terms, words written out from 30_encoding.md R71 and R80, the step vectors of
95_test_vectors.md (V1 to V7, named at each test), and a witness for the hypotheses of every statement that has some. -/

namespace Sys2Proof.Tests

open Sys2Proof Sys2Proof.Machine

/-! ## Helpers -/

/-- The reset state with these registers. -/
def withRegs (rs : List (Reg × Byte)) : State := rs.foldl (fun s p => s.setV p.1 p.2) State.reset

/-- The state after a transition, if there is one. -/
def nextOf : Result → Option State
  | .next t => some t
  | _ => none

/-- One transition on the word `w` placed at the pc, and what `f` shows of the state after it. -/
def after {α : Type} (w : Nat) (s : State) (f : State → α) : Option α := (nextOf (step (s.withFetchWord 16 w))).map f

/-- The cells of row `y` that are on. -/
def rowOn (y : Nat) (s : State) : List Nat := (List.range 64).filter fun x => s.disp.cell x y

/-- The state with `sp = n`, every entry 0x0206. -/
def withSp (n : Fin 13) (s : State) : State := { s with sp := n, stack := Vector.replicate 12 0x0206#16 }

/-- The state with these bytes stored from `a` on. -/
def withBytes (a : Word) (bs : List Byte) (s : State) : State := storeFrom a 0 bs s

/-- The state with these keys down. -/
def withKeys (ks : List KeyIx) (s : State) : State := ks.foldl (fun s k => s.setKey k true) s

/-- The state waiting for the release of key `k`. -/
def awaiting (k : KeyIx) (s : State) : State := (s.setKwKey k).setKwState .awaitingRelease

/-! ## WellFormed refuses ill-formed terms -/

theorem test_illformed_class0 : (Instr.unrecognized 0x00E0#16).wellFormed = false ∧ (Instr.unrecognized 0x00EE#16).wellFormed = false := by decide
theorem test_illformed_class5 : (Instr.unrecognized 0x5120#16).wellFormed = false := by decide
theorem test_illformed_class8 : (Instr.unrecognized 0x8124#16).wellFormed = false ∧ (Instr.unrecognized 0x812E#16).wellFormed = false := by decide
theorem test_illformed_class9 : (Instr.unrecognized 0x9120#16).wellFormed = false := by decide
theorem test_illformed_classE : (Instr.unrecognized 0xE19E#16).wellFormed = false ∧ (Instr.unrecognized 0xE1A1#16).wellFormed = false := by decide
theorem test_illformed_classF : (Instr.unrecognized 0xF107#16).wellFormed = false ∧ (Instr.unrecognized 0xF165#16).wellFormed = false := by decide
theorem test_illformed_other_classes :
    [0x1234#16, 0x2234#16, 0x3123#16, 0x4123#16, 0x6123#16, 0x7123#16, 0xA123#16, 0xB123#16, 0xC123#16, 0xD123#16].all
      (fun w => (Instr.unrecognized w).wellFormed == false) = true := by decide
theorem test_wellformed_unrecognized :
    [0x0000#16, 0x0123#16, 0x5121#16, 0x8128#16, 0x9AB7#16, 0xE19F#16, 0xF130#16].all
      (fun w => (Instr.unrecognized w).wellFormed) = true := by decide

/-! ## Decoding: the word of each constructor, bit by bit (class, then X, Y, N or NN or NNN) -/

theorem test_decode_class0 : decode 0b0000000011100000#16 = .cls ∧ decode 0b0000000011101110#16 = .ret := by decide
theorem test_decode_jumps : decode 0b0001001000110100#16 = .jp 0x234#12 ∧ decode 0b0010001000110100#16 = .call 0x234#12 ∧
    decode 0b1011001000110100#16 = .jpV0 0x234#12 := by decide
theorem test_decode_skips : decode 0b0011010000010010#16 = .seImm 4#4 0x12#8 ∧ decode 0b0100010000010010#16 = .sneImm 4#4 0x12#8 ∧
    decode 0b0101000100100000#16 = .seReg 1#4 2#4 ∧ decode 0b1001101010110000#16 = .sneReg 0xA#4 0xB#4 := by decide
theorem test_decode_immediates : decode 0b0110101011101010#16 = .ldImm 0xA#4 0xEA#8 ∧ decode 0b0111000100000001#16 = .addImm 1#4 1#8 ∧
    decode 0b1100000100001111#16 = .rnd 1#4 0x0F#8 := by decide
theorem test_decode_class8_logic : decode 0b1000000100100000#16 = .ldReg 1#4 2#4 ∧ decode 0b1000000100100001#16 = .orReg 1#4 2#4 ∧
    decode 0b1000000100100010#16 = .andReg 1#4 2#4 ∧ decode 0b1000000100100011#16 = .xorReg 1#4 2#4 := by decide
theorem test_decode_class8_arithmetic : decode 0b1000000100100100#16 = .addReg 1#4 2#4 ∧ decode 0b1000000100100101#16 = .sub 1#4 2#4 ∧
    decode 0b1000000100100110#16 = .shr 1#4 2#4 ∧ decode 0b1000000100100111#16 = .subn 1#4 2#4 ∧
    decode 0b1000000100101110#16 = .shl 1#4 2#4 := by decide
theorem test_decode_index_and_draw : decode 0b1010101111001101#16 = .ldI 0xBCD#12 ∧ decode 0b1101000100100011#16 = .drw 1#4 2#4 3#4 := by decide
theorem test_decode_classE : decode 0b1110000110011110#16 = .skp 1#4 ∧ decode 0b1110000110100001#16 = .sknp 1#4 := by decide
theorem test_decode_classF_timers : decode 0b1111001100000111#16 = .ldVxDt 3#4 ∧ decode 0b1111001100001010#16 = .ldVxK 3#4 ∧
    decode 0b1111001100010101#16 = .ldDtVx 3#4 ∧ decode 0b1111001100011000#16 = .ldStVx 3#4 := by decide
theorem test_decode_classF_memory : decode 0b1111000000011110#16 = .addI 0#4 ∧ decode 0b1111000000101001#16 = .ldF 0#4 ∧
    decode 0b1111000000110011#16 = .ldB 0#4 ∧ decode 0b1111000101010101#16 = .ldMemVx 1#4 ∧
    decode 0b1111111101100101#16 = .ldVxMem 0xF#4 := by decide
/-- V1's unrecognized words. -/
theorem test_decode_unrecognized :
    [0x00E1#16, 0x0000#16, 0x0123#16, 0x5121#16, 0x9AB7#16, 0x8128#16, 0x812F#16, 0xE19F#16, 0xF130#16].all
      (fun w => decode w == .unrecognized w) = true := by decide
theorem test_decode_bytes : decodeBytes [0xABCD#16 |> highByte, 0xCD#8, 0x12#8] = .ok (.ldI 0xBCD#12, [0x12#8]) := by decide
theorem test_decode_table_word : decodeTableWord 16 0xABCD = some (.ldI 0xBCD#12) ∧ decodeTableWord 16 0 = some (.unrecognized 0#16) := by decide

/-! ## Assembly: the examples of R86, and numbers at the edge of their field -/

theorem test_assemble : (assemble ⟨.add, [.reg 3#4, .reg 7#4]⟩).map encode = some 0x8374#16 ∧
    (assemble ⟨.drw, [.reg 0#4, .reg 1#4, .num 5]⟩).map encode = some 0xD015#16 ∧
    (assemble ⟨.shr, [.reg 1#4]⟩).map encode = some 0x8106#16 := by decide
theorem test_assemble_range : (assemble ⟨.ld, [.reg 1#4, .num 0xFF]⟩).map encode = some 0x61FF#16 ∧
    assemble ⟨.ld, [.reg 1#4, .num 0x100]⟩ = none ∧ assemble ⟨.jp, [.num 0x1000]⟩ = none ∧
    assemble ⟨.drw, [.reg 0#4, .reg 1#4, .num 16]⟩ = none ∧ assemble ⟨.jp, [.reg 1#4, .num 0]⟩ = none := by decide
theorem test_spelling_text : (spelling (.addReg 3#4 7#4)).map AsmLine.text = some "ADD V3, V7" ∧
    (spelling (.ldImm 0xA#4 0xEA#8)).map AsmLine.text = some "LD VA, 0xEA" ∧
    (spelling (.ldMemVx 1#4)).map AsmLine.text = some "LD [I], V1" := by decide

/-! ## Steps: control transfer (V2) -/

theorem test_jp : after 0x1234 State.reset (·.pc) = some 0x0234#16 ∧ after 0x1205 State.reset (·.pc) = some 0x0205#16 := by decide
theorem test_call : after 0x2210 (State.reset.setPc 0x0204#16) (fun t => (t.stack[0], t.sp, t.pc)) = some (0x0206#16, 1, 0x0210#16) := by decide
theorem test_call_overflow : after 0x2400 ((withSp 12 State.reset).setPc 0x0300#16)
    (fun t => (t.runState, t.haltReason, t.pc, t.sp)) = some (.halted, .stackOverflow, 0x0302#16, 12) := by decide
theorem test_ret : after 0x00EE ((withSp 1 State.reset).setPc 0x0212#16) (fun t => (t.sp, t.pc, t.stack[0])) = some (0, 0x0206#16, 0x0206#16) := by decide
theorem test_ret_underflow : after 0x00EE State.reset (fun t => (t.runState, t.haltReason, t.pc, t.sp)) =
    some (.halted, .stackUnderflow, 0x0202#16, 0) := by decide
theorem test_se_imm : after 0x3412 ((withRegs [(4#4, 0x12#8)]).setPc 0x0300#16) (·.pc) = some 0x0304#16 ∧
    after 0x3412 ((withRegs [(4#4, 0x13#8)]).setPc 0x0300#16) (·.pc) = some 0x0302#16 := by decide
theorem test_se_imm_pc_wraps : after 0x3512 ((withRegs [(5#4, 0x12#8)]).setPc 0xFFFE#16) (·.pc) = some 0x0002#16 := by decide
theorem test_sne_imm : after 0x4412 ((withRegs [(4#4, 0x13#8)]).setPc 0x0300#16) (·.pc) = some 0x0304#16 ∧
    after 0x4412 ((withRegs [(4#4, 0x12#8)]).setPc 0x0300#16) (·.pc) = some 0x0302#16 := by decide
theorem test_se_reg : after 0x5120 ((withRegs [(1#4, 7#8), (2#4, 7#8)]).setPc 0x0300#16) (·.pc) = some 0x0304#16 ∧
    after 0x5330 (State.reset.setPc 0x0300#16) (·.pc) = some 0x0304#16 := by decide
theorem test_sne_reg : after 0x9120 ((withRegs [(1#4, 7#8), (2#4, 8#8)]).setPc 0x0300#16) (·.pc) = some 0x0304#16 ∧
    after 0x9330 (State.reset.setPc 0x0300#16) (·.pc) = some 0x0302#16 := by decide
theorem test_jp_v0 : after 0xB300 (withRegs [(0#4, 4#8)]) (·.pc) = some 0x0304#16 ∧
    after 0xBFFF (withRegs [(0#4, 0xFF#8)]) (·.pc) = some 0x10FE#16 := by decide
/-- V1, the step vectors. -/
theorem test_unrecognized : after 0x0000 (State.reset.setPc 0x0300#16) (·.pc) = some 0x0302#16 ∧
    (State.reset.setPc 0x0300#16).diagOut = some ⟨0x0300#16, 0x0000#16⟩ := by decide
theorem test_odd_pc : after 0x612A (State.reset.setPc 0x0301#16) (fun t => (t.V 1#4, t.pc)) = some (0x2A#8, 0x0303#16) := by decide
theorem test_fetch_wraps : (nextOf (step ((withBytes 0x0FFF#16 [0x12#8] State.reset).setPc 0x0FFF#16))).map (·.pc) = some 0x02F0#16 := by decide
theorem test_fetch_faults_under_fault : (nextOf (instrStepUnder .fault ((withBytes 0x0FFF#16 [0x12#8] State.reset).setPc 0x0FFF#16))).map
    (fun t => (t.runState, t.haltReason, t.pc)) = some (.halted, .addressRange 0x1000, 0x0FFF#16) := by decide

/-! ## Steps: ALU (V3) -/

theorem test_ld_imm : after 0x6AEA State.reset (·.V 0xA#4) = some 0xEA#8 := by decide
theorem test_add_imm_wraps : after 0x7101 (withRegs [(1#4, 0xFF#8), (0xF#4, 0x55#8)]) (fun t => (t.V 1#4, t.V 0xF#4)) = some (0x00#8, 0x55#8) := by decide
theorem test_ld_reg : after 0x8120 (withRegs [(2#4, 0x5A#8)]) (fun t => (t.V 1#4, t.V 2#4)) = some (0x5A#8, 0x5A#8) := by decide
theorem test_or : after 0x8121 (withRegs [(1#4, 0xF0#8), (2#4, 0x0F#8), (0xF#4, 0x55#8)]) (fun t => (t.V 1#4, t.V 0xF#4)) = some (0xFF#8, 0x55#8) := by decide
theorem test_and : after 0x8122 (withRegs [(1#4, 0xF0#8), (2#4, 0x3C#8), (0xF#4, 0x55#8)]) (fun t => (t.V 1#4, t.V 0xF#4)) = some (0x30#8, 0x55#8) := by decide
theorem test_xor : after 0x8123 (withRegs [(1#4, 0xF0#8), (2#4, 0x3C#8), (0xF#4, 0x55#8)]) (fun t => (t.V 1#4, t.V 0xF#4)) = some (0xCC#8, 0x55#8) := by decide
theorem test_add_carry : after 0x8124 (withRegs [(1#4, 0xFF#8), (2#4, 0x01#8)]) (fun t => (t.V 1#4, t.V 0xF#4)) = some (0x00#8, 1#8) := by decide
theorem test_add_flag_last : after 0x8F14 (withRegs [(0xF#4, 0x01#8), (1#4, 0x01#8)]) (·.V 0xF#4) = some 0#8 := by decide
theorem test_sub_borrow : after 0x8125 (withRegs [(1#4, 3#8), (2#4, 5#8)]) (fun t => (t.V 1#4, t.V 0xF#4)) = some (0xFE#8, 0#8) := by decide
theorem test_sub_equal : after 0x8125 (withRegs [(1#4, 7#8), (2#4, 7#8)]) (fun t => (t.V 1#4, t.V 0xF#4)) = some (0#8, 1#8) := by decide
theorem test_shr : after 0x8126 (withRegs [(1#4, 5#8), (2#4, 0xFF#8)]) (fun t => (t.V 1#4, t.V 0xF#4)) = some (2#8, 1#8) := by decide
theorem test_shr_flag_last : after 0x8F06 (withRegs [(0xF#4, 2#8)]) (·.V 0xF#4) = some 0#8 := by decide
theorem test_subn : after 0x8127 (withRegs [(1#4, 3#8), (2#4, 5#8)]) (fun t => (t.V 1#4, t.V 0xF#4)) = some (2#8, 1#8) := by decide
theorem test_subn_borrow : after 0x8127 (withRegs [(1#4, 5#8), (2#4, 3#8)]) (fun t => (t.V 1#4, t.V 0xF#4)) = some (0xFE#8, 0#8) := by decide
theorem test_shl : after 0x812E (withRegs [(1#4, 0x81#8)]) (fun t => (t.V 1#4, t.V 0xF#4)) = some (2#8, 1#8) := by decide
theorem test_shl_flag_last : after 0x8F0E (withRegs [(0xF#4, 0x7F#8)]) (·.V 0xF#4) = some 0#8 := by decide
theorem test_rnd : (nextOf (execRndOf 0xA7#8 1#4 0x0F#8 State.reset)).map (·.V 1#4) = some 0x07#8 := by decide
theorem test_rnd_step : after 0xC10F State.reset (fun t => (t.pc, t.draws)) = some (0x0202#16, 1) := by decide

/-! ## Steps: address register and memory (V4) -/

theorem test_ld_i : after 0xA123 State.reset (·.I) = some 0x0123#16 := by decide
theorem test_add_i : after 0xF01E ((withRegs [(0#4, 1#8), (0xF#4, 0x55#8)]).setI 0x0FFF#16) (fun t => (t.I, t.V 0xF#4)) = some (0x1000#16, 0x55#8) := by decide
theorem test_add_i_wraps : after 0xF01E ((withRegs [(0#4, 1#8)]).setI 0xFFFF#16) (·.I) = some 0x0000#16 := by decide
theorem test_ld_f : after 0xF029 (withRegs [(0#4, 0x0F#8)]) (·.I) = some 0x004B#16 ∧ after 0xF029 (withRegs [(0#4, 0xFF#8)]) (·.I) = some 0x04FB#16 := by decide
theorem test_ld_b : after 0xF033 ((withRegs [(0#4, 234#8)]).setI 0x0300#16)
    (fun t => ([0x300, 0x301, 0x302].map t.mem.read, t.I)) = some ([2#8, 3#8, 4#8], 0x0300#16) := by decide
theorem test_ld_b_edge : after 0xF033 ((withRegs [(0#4, 234#8)]).setI 0x0FFE#16)
    (fun t => [0xFFE, 0xFFF, 0x000].map t.mem.read) = some [2#8, 3#8, 4#8] := by decide
theorem test_store : after 0xF055 ((withRegs [(0#4, 0x11#8), (1#4, 0x22#8)]).setI 0x0400#16)
    (fun t => ([0x400, 0x401].map t.mem.read, t.I)) = some ([0x11#8, 0#8], 0x0400#16) := by decide
theorem test_store_edge : after 0xF155 ((withRegs [(0#4, 0xAA#8), (1#4, 0xBB#8)]).setI 0x0FFF#16)
    (fun t => [0xFFF, 0x000].map t.mem.read) = some [0xAA#8, 0xBB#8] := by decide
theorem test_load : after 0xF265 ((withBytes 0x300#16 [2#8, 3#8, 4#8] State.reset).setI 0x0300#16)
    (fun t => ([0#4, 1#4, 2#4, 3#4].map t.V, t.I)) = some ([2#8, 3#8, 4#8, 0#8], 0x0300#16) := by decide
theorem test_load_all : after 0xFF65 ((withBytes 0x500#16 ((List.range 16).map (BitVec.ofNat 8)) State.reset).setI 0x0500#16)
    (fun t => (t.V 0xE#4, t.V 0xF#4)) = some (0x0E#8, 0x0F#8) := by decide

/-! ## Steps: display (V5) -/

/-- A display with the one cell (x, y) on. -/
def oneCell (x y : Nat) (s : State) : State := s.setDisp (s.disp.flip x y)

theorem test_cls : after 0x00E0 (oneCell 3 5 State.reset) (rowOn 5) = some [] := by decide
theorem test_drw_anchor_and_clip : after 0xD011 ((withBytes 0x300#16 [0xFF#8] (withRegs [(0#4, 0x7E#8), (1#4, 0x3F#8)])).setI 0x300#16)
    (fun t => (rowOn 31 t, rowOn 0 t, t.V 0xF#4)) = some ([62, 63], [], 0#8) := by decide
theorem test_drw_collision : after 0xD011 (oneCell 0 0 ((withBytes 0x300#16 [0x81#8] State.reset).setI 0x300#16))
    (fun t => (rowOn 0 t, t.V 0xF#4)) = some ([7], 1#8) := by decide

/-! ## Steps: keypad and timers (V6) -/

theorem test_skp : after 0xE29E (withKeys [5#4] (withRegs [(2#4, 0x15#8)])) (·.pc) = some 0x0204#16 ∧
    after 0xE29E (withRegs [(2#4, 5#8)]) (·.pc) = some 0x0202#16 := by decide
theorem test_sknp : after 0xE2A1 (withRegs [(2#4, 5#8)]) (·.pc) = some 0x0204#16 ∧
    after 0xE2A1 (withKeys [5#4] (withRegs [(2#4, 5#8)])) (·.pc) = some 0x0202#16 := by decide
theorem test_key_wait_capture : after 0xF30A (withKeys [9#4, 4#4] State.reset) (fun t => (t.kwKey, t.kwState, t.pc, t.V 3#4)) =
    some (4#4, .awaitingRelease, 0x0200#16, 0#8) := by decide
theorem test_key_wait_commit : after 0xF30A (awaiting 4#4 State.reset) (fun t => (t.V 3#4, t.kwState, t.pc)) =
    some (4#8, .awaitingPress, 0x0202#16) := by decide
theorem test_ld_vx_dt : after 0xF307 (State.reset.setDt 0x3C#8) (·.V 3#4) = some 0x3C#8 := by decide
theorem test_ld_dt_vx : after 0xF315 (withRegs [(3#4, 0x3C#8)]) (fun t => (t.dt, t.st)) = some (0x3C#8, 0#8) := by decide
theorem test_ld_st_vx : after 0xF318 (withRegs [(3#4, 1#8)]) (fun t => (t.st, t.dt, t.soundOn)) = some (1#8, 0#8, true) := by decide
theorem test_tick_floors : let t := State.reset.tick; (t.dt, t.st) = (0#8, 0#8) := by decide
theorem test_tick_counts : let t := ((State.reset.setDt 0xFF#8).setSt 1#8).tick; (t.dt, t.st, t.soundOn) = (0xFE#8, 0#8, false) := by decide

/-! ## Construction (V7) -/

theorem test_construct_empty : nextOf (construct []) = some State.reset := by decide
theorem test_construct_places_image : (nextOf (construct [0x61#8, 0x2A#8])).map (fun s => (s.fetch, s.mem.read 0x202)) = some (0x612A#16, 0#8) := by decide

/-! ## Witnesses: states and operands that meet the hypotheses of each statement, clause by clause -/

theorem witness_wellFormed : (Instr.drw 0xF#4 0xF#4 0xF#4).wellFormed = true ∧ (Instr.unrecognized 0xFFFF#16).wellFormed = true ∧
    (Instr.jp 0xFFF#12).wellFormed = true := by decide
theorem witness_every_table_row_has_a_word : (specRows.all fun r => r.2.1 &&& r.1 == r.2.1) = true ∧
    (opcodeTable.all fun r => r.matches r.pat) = true := by decide
theorem witness_unrecognized_word : decode 0x00E1#16 = .unrecognized 0x00E1#16 ∧
    isUnrecognizedWord 0x00E1#16 = true ∧ (opcodeTable.all fun r => r.matches 0x00E1#16 == false) = true := by decide
theorem witness_StepRuns : let s := State.reset.withFetchWord 16 0x612A
    s.runState = .running ∧ s.phase = .instr 10 ∧
      decode (wordOfBytes (s.byteAt s.pc) (s.byteAt (s.pc + 1#16))) = .ldImm 1#4 0x2A#8 := by decide
theorem witness_PlacedWord : (State.reset.setPc 0xFFFF#16).mem.wf = true ∧ (0 < 65536 ∧ 65535 < 65536) := by decide
theorem witness_FetchOutOfRange : 4096 ≤ (State.reset.setPc 0x1000#16).pc.toNat ∧
    4096 ≤ ((State.reset.setPc 0x0FFF#16).pc + 1#16).toNat ∧ 4096 ≤ (State.reset.setPc 0xFFFF#16).pc.toNat := by decide
/-- The last byte of FX33, the first of FX55, and a block that ends at the last address. -/
theorem witness_DataOutOfRange :
    (2 < dataBytes (.ldB 0#4) ∧ 4096 ≤ (effAddr 0x0FFE#16 2).toNat ∧ ∀ j, j < 2 → (effAddr 0x0FFE#16 j).toNat < 4096) ∧
    (0 < dataBytes (.ldMemVx 0#4) ∧ 4096 ≤ (effAddr 0x1000#16 0).toNat ∧ ∀ j, j < 0 → (effAddr 0x1000#16 j).toNat < 4096) ∧
    (∀ k, k < dataBytes (.ldB 0#4) → (effAddr 0x0FFD#16 k).toNat < 4096) := by decide
theorem witness_ReturnPops : 0 < (withSp 1 State.reset).sp.val ∧ 0 < (withSp 12 State.reset).sp.val ∧ State.reset.sp.val = 0 := by decide
theorem witness_CallPushes : State.reset.sp.val < 12 ∧ (withSp 11 State.reset).sp.val < 12 ∧ (withSp 12 State.reset).sp.val = 12 := by decide
theorem witness_ThirteenthCall : (List.replicate 12 0x200#12).length = 12 ∧ State.reset.sp.val = 0 := by decide
/-- The not-VF premises of the flag writers. -/
theorem witness_result_register : (0#4 : Reg) ≠ Reg.vf ∧ (0xE#4 : Reg) ≠ Reg.vf := by decide
/-- The byte just past the block, also where the block wraps to address 0. -/
theorem witness_Bcd : State.reset.mem.wf = true ∧
    (∀ k, k < 3 → cellIndex (effAddr 0x0300#16 k) ≠ cellIndex 0x0303#16) ∧
    (∀ k, k < 3 → cellIndex (effAddr 0x0FFE#16 k) ≠ cellIndex 0x0001#16) := by decide
theorem witness_StoreBlock : State.reset.mem.wf = true ∧ (0xF#4 : Reg).toNat ≤ (0xF#4 : Reg).toNat ∧ (0#4 : Reg).toNat ≤ (0#4 : Reg).toNat ∧
    (∀ k, k ≤ (0#4 : Reg).toNat → cellIndex (effAddr 0x0400#16 k) ≠ cellIndex 0x0401#16) ∧
    (∀ k, k ≤ (0xF#4 : Reg).toNat → cellIndex (effAddr 0x0FF0#16 k) ≠ cellIndex 0x1000#16) := by decide
theorem witness_LoadBlock : (3#4 : Reg).toNat ≤ (3#4 : Reg).toNat ∧ (3#4 : Reg).toNat < (4#4 : Reg).toNat ∧
    (0xE#4 : Reg).toNat < (0xF#4 : Reg).toNat := by decide
/-- The state after the store itself is one with its memory and its I. -/
theorem witness_StoredRegistersLoadBack : State.reset.mem.wf = true ∧
    (nextOf (exec (.ldMemVx 0xF#4) (State.reset.setI 0x0FF8#16))).map (fun t => (t.mem.isEmpty, t.I)) = some (false, 0x0FF8#16) := by decide
theorem witness_StoredCode : (State.reset.setI 0x0200#16).mem.wf = true ∧ 1 ≤ (1#4 : Reg).toNat ∧
    (State.reset.setI 0x0200#16).I = (State.reset.setI 0x0200#16).pc := by decide
/-- Glyph 0 drawn at (0, 0): a set pixel on a cell that is on, and one on a cell that is off. -/
theorem witness_Draw_collision : drawnPixel 0#4 1#4 5#4 (oneCell 0 0 State.reset) 0 0 = true ∧
    (oneCell 0 0 State.reset).disp.cell 0 0 = true ∧ drawnPixel 0#4 1#4 5#4 (oneCell 0 0 State.reset) 1 0 = true ∧
    (oneCell 0 0 State.reset).disp.cell 1 0 = false := by decide
theorem witness_Draw_no_collision : ¬ ∃ px py, drawnPixel 0#4 1#4 5#4 State.reset px py = true ∧ State.reset.disp.cell px py = true := by
  rintro ⟨px, py, -, h⟩
  unfold Display.cell at h
  split at h <;> simp [State.reset] at h
theorem witness_Draw_no_rows : ((0#4 : Nibble) = 0#4) ∧ (0#4 : Reg) ≠ Reg.vf ∧ (1#4 : Reg) ≠ Reg.vf := by decide
theorem witness_KeySkips : (withKeys [0xF#4] State.reset).key[15]? = some true ∧ (withKeys [0xF#4] State.reset).key[0]? = some false := by decide
theorem witness_KeyWait :
    (State.reset.kwState = .awaitingPress ∧ ∀ k, State.reset.keyDown k = false) ∧
    ((withKeys [9#4, 4#4] State.reset).kwState = .awaitingPress ∧ (withKeys [9#4, 4#4] State.reset).keyDown 4#4 = true ∧
      ∀ j : KeyIx, j.toNat < (4#4 : KeyIx).toNat → (withKeys [9#4, 4#4] State.reset).keyDown j = false) ∧
    ((withKeys [0xF#4] State.reset).keyDown 0xF#4 = true ∧
      ∀ j : KeyIx, j.toNat < (0xF#4 : KeyIx).toNat → (withKeys [0xF#4] State.reset).keyDown j = false) ∧
    ((awaiting 4#4 (withKeys [4#4] State.reset)).kwState = .awaitingRelease ∧
      (awaiting 4#4 (withKeys [4#4] State.reset)).keyDown (awaiting 4#4 (withKeys [4#4] State.reset)).kwKey = true) ∧
    ((awaiting 4#4 State.reset).kwState = .awaitingRelease ∧ (awaiting 4#4 State.reset).keyDown (awaiting 4#4 State.reset).kwKey = false) := by decide
theorem witness_WrapPolicy : State.reset.mem.wf = true ∧ (0x1005#16 : Word).toNat % 4096 = (0x0005#16 : Word).toNat % 4096 := by decide
theorem witness_Spelling : spelling (.jpV0 0xFFF#12) = some ⟨.jp, [.reg 0#4, .num 0xFFF]⟩ ∧ spelling (.unrecognized 0#16) = none := by decide
theorem witness_UnrecognizedStep : State.reset.runState = .running ∧ State.reset.phase = .instr 10 ∧
    isUnrecognizedWord State.reset.fetch = true := by decide
theorem witness_InstructionsWriteOnly : exec .cls State.reset = .next (State.reset.setDisp Display.clear) ∧
    mayWriteReg .cls 0#4 = false ∧ mayWritePart .cls .mem = false := ⟨rfl, rfl, rfl⟩
theorem witness_FlagWriters : Instr.drw 1#4 2#4 3#4 ∈
    [Instr.addReg 1#4 2#4, .sub 1#4 2#4, .shr 1#4 2#4, .subn 1#4 2#4, .shl 1#4 2#4, .drw 1#4 2#4 3#4] := by decide
/-- A running state in each phase, and a paused one, that meet the invariant and make a transition. -/
theorem witness_StepKeepsTheInvariant :
    ((State.reset.setPc 0x0300#16).Inv ∧ (nextOf (step (State.reset.setPc 0x0300#16))).isSome = true) ∧
    ((State.reset.setPhase .tick).Inv ∧ (nextOf (step (State.reset.setPhase .tick))).isSome = true) ∧
    ((State.reset.setPhase .poll).Inv ∧ (nextOf (step (State.reset.setPhase .poll))).isSome = true) ∧
    (State.Inv { State.reset with runState := .paused } ∧
      (nextOf (step { State.reset with runState := .paused })).isSome = true) := by
  refine ⟨⟨⟨by decide, by decide, ?_, ?_, by decide⟩, by decide⟩, ⟨⟨by decide, by decide, ?_, ?_, by decide⟩, by decide⟩,
    ⟨⟨by decide, by decide, ?_, ?_, by decide⟩, by decide⟩, ⟨⟨by decide, by decide, ?_, ?_, by decide⟩, by decide⟩⟩
  all_goals first
    | (intro a h; cases h; done)
    | (intro m h; change Phase.remaining stepsPerFrame = .instr m at h; cases h; decide)
/-- A STEP that sets the timer, one that leaves it, and a tick that counts it down. -/
theorem witness_TimersFall : after 0xF315 (withRegs [(3#4, 0x3C#8)]) (·.dt) = some 0x3C#8 ∧
    after 0x00E0 (State.reset.setDt 5#8) (·.dt) = some 5#8 ∧
    (nextOf (step ((State.reset.setDt 5#8).setPhase .tick))).map (·.dt) = some 4#8 := by decide
theorem witness_RunStateRequests : State.reset.runState = .running ∧ State.reset.runState ≠ .halted ∧
    ({ State.reset with runState := .paused } : State).runState = .paused ∧ (State.reset.halt .quit).runState = .halted := by decide
/-- The two fatal conditions, a request at a poll, and a key event at a poll. -/
theorem witness_RunStateAndKeypad :
    after 0x00EE State.reset (·.runState) = some .halted ∧ after 0x2200 (withSp 12 State.reset) (·.runState) = some .halted ∧
    (nextOf (step ((State.reset.setPhase .poll).setInputs [⟨[⟨5#4, true⟩], .pause⟩]))).map
      (fun t => (t.runState, t.keyDown 5#4)) = some (.paused, true) := by decide
theorem witness_Paused : ({ State.reset with runState := .paused } : State).runState = .paused ∧
    (step { State.reset with runState := .paused, inputs := [⟨[⟨5#4, true⟩], .resume⟩] } |> nextOf).map
      (fun t => (t.runState, t.keyDown 5#4, t.inputs.length)) = some (.running, true, 0) := by decide
/-- A HALTED machine with no frame under way, and one that a STEP has just halted. -/
theorem witness_Halted : (State.reset.halt .stackUnderflow).runState = .halted ∧
    (State.reset.halt .stackUnderflow).phase = Phase.remaining stepsPerFrame ∧
    after 0x00EE State.reset (fun t => (t.runState, t.phase)) = some (.halted, .instr 9) := by decide
/-- R245: the frame of a halting STEP still has its poll, which takes the keys and the input but no request; then the run is over. -/
theorem test_poll_after_halt :
    ((after 0x00EE (State.reset.setInputs [⟨[⟨5#4, true⟩], .resume⟩, ⟨[], .none⟩]) (fun t => t)).bind (fun t => nextOf (step t))).map
      (fun t => (t.runState, t.keyDown 5#4, t.inputs.length, (nextOf (step t)).isNone)) = some (.halted, true, 1, true) := by decide
theorem witness_Poll : (State.reset.setPhase .poll).runState = .running ∧ (State.reset.setPhase .poll).phase = .poll := by decide
/-- A frame whose steps all run, and one whose first step halts the core. -/
theorem witness_FrameContract : State.reset.runState = .running ∧ State.reset.phase = Phase.remaining stepsPerFrame ∧
    (nextOf (frameLoop stepsPerFrame State.reset)).map (·.runState) = some .running ∧
    (nextOf (frameLoop stepsPerFrame (State.reset.withFetchWord 16 0x00EE))).map (·.runState) = some .halted := by decide
theorem witness_Construct : ([] : List Byte).length ≤ 3584 ∧ (List.replicate 3584 0x12#8).length ≤ 3584 ∧
    3584 < (List.replicate 3585 0x12#8).length := by
  simp only [List.length_replicate, List.length_nil]; omega
theorem witness_Reset_memory : State.reset.mem.read 79 = 0x80#8 ∧ State.reset.mem.read 80 = 0#8 := by decide

end Sys2Proof.Tests
end

/-! # Proofs: the state, its frame and its invariant (10_state.md) -/

/-! ## What each operation leaves unchanged

One lemma per operation over the state, in the terms of `Unchanged` (Safety.lean), and the rules that put them together. -/

namespace Sys2Proof.Machine

section Unchanged

variable {rs rs' : List Reg} {ps ps' : List Part} {s t u : State}

theorem Part.Same.trans {p : Part} (h : p.Same s t) (k : p.Same t u) : p.Same s u := by
  cases p with
  | mem => exact fun a => (k a).trans (h a)
  | stack => exact ⟨k.1.trans h.1, k.2.trans h.2⟩
  | run => exact ⟨k.1.trans h.1, k.2.trans h.2⟩
  | keyWait => exact ⟨k.1.trans h.1, k.2.trans h.2⟩
  | index | pc | dt | st | disp | key | phase | inputs | draws => exact Eq.trans k h

theorem Part.Same.refl (s : State) (p : Part) : p.Same s s := by
  cases p <;> simp [Part.Same]

theorem Unchanged.refl (s : State) : Unchanged [] [] s s :=
  ⟨fun _ _ => rfl, fun p _ => Part.Same.refl s p⟩

/-- Two updates after one another change at most what either changes. -/
theorem Unchanged.trans (h : Unchanged rs ps s t) (k : Unchanged rs' ps' t u) :
    Unchanged (rs ++ rs') (ps ++ ps') s u := by
  obtain ⟨hV, hP⟩ := h
  obtain ⟨kV, kP⟩ := k
  constructor
  · intro r hr
    rw [List.mem_append, not_or] at hr
    exact (kV r hr.2).trans (hV r hr.1)
  · intro p hp
    rw [List.mem_append, not_or] at hp
    exact (hP p hp.1).trans (kP p hp.2)

end Unchanged

section Operations

variable (s : State)

theorem unchanged_setV (x : Reg) (b : VReg) : Unchanged [x] [] s (s.setV x b) :=
  ⟨fun r hr => by simp [show r ≠ x by simpa using hr], fun p _ => by cases p <;> simp [Part.Same]⟩

theorem unchanged_setI (w : IReg) : Unchanged [] [.index] s (s.setI w) :=
  ⟨fun _ _ => rfl, fun p hp => by cases p <;> simp_all [Part.Same]⟩

theorem unchanged_setPc (w : PcReg) : Unchanged [] [.pc] s (s.setPc w) :=
  ⟨fun _ _ => rfl, fun p hp => by cases p <;> simp_all [Part.Same]⟩

theorem unchanged_rewind : Unchanged [] [.pc] s s.rewind := unchanged_setPc s _

theorem unchanged_skipIf (c : Bool) : Unchanged [] [.pc] s (s.skipIf c) :=
  State.skipIf_eq s c ▸ unchanged_setPc s _

theorem unchanged_setDt (b : Timer) : Unchanged [] [.dt] s (s.setDt b) :=
  ⟨fun _ _ => rfl, fun p hp => by cases p <;> simp_all [Part.Same]⟩

theorem unchanged_setSt (b : Timer) : Unchanged [] [.st] s (s.setSt b) :=
  ⟨fun _ _ => rfl, fun p hp => by cases p <;> simp_all [Part.Same]⟩

theorem unchanged_setDisp (d : Display) : Unchanged [] [.disp] s (s.setDisp d) :=
  ⟨fun _ _ => rfl, fun p hp => by cases p <;> simp_all [Part.Same]⟩

theorem unchanged_setKwState (w : KwState) : Unchanged [] [.keyWait] s (s.setKwState w) :=
  ⟨fun _ _ => rfl, fun p hp => by cases p <;> simp_all [Part.Same]⟩

theorem unchanged_setKwKey (k : KeyIx) : Unchanged [] [.keyWait] s (s.setKwKey k) :=
  ⟨fun _ _ => rfl, fun p hp => by cases p <;> simp_all [Part.Same]⟩

theorem unchanged_countDraw : Unchanged [] [.draws] s s.countDraw :=
  ⟨fun _ _ => rfl, fun p hp => by cases p <;> simp_all [Part.Same]⟩

theorem unchanged_halt (r : HaltReason) : Unchanged [] [.run] s (s.halt r) :=
  ⟨fun _ _ => rfl, fun p hp => by cases p <;> simp_all [Part.Same]⟩

/-- The result and the flag of R23 and R120. -/
theorem unchanged_setResultFlag (x : Reg) (b : VReg) (c : Bool) :
    Unchanged [x, .vf] [] s (s.setResultFlag x b c) :=
  (unchanged_setV s x b).trans (unchanged_setV _ .vf _)

/-- The stack with its pointer, and the pc: what RET and CALL write when they do not halt (R100, R102). -/
theorem unchanged_stack_pc (st : Vector StackEntry Config.stackDepth) (n : Fin (Config.stackDepth + 1)) (w : PcReg) :
    Unchanged [] [.pc, .stack] s { s with stack := st, sp := n, pc := w } :=
  ⟨fun _ _ => rfl, fun p hp => by cases p <;> simp_all [Part.Same, State.byteAt]⟩

/-- A block store (R60). -/
theorem unchanged_storeFrom (base : IReg) (k : Nat) (bs : List Byte) :
    Unchanged [] [.mem] s (storeFrom base k bs s) := by
  rw [storeFrom_eq]
  exact ⟨fun _ _ => rfl, fun p hp => by cases p <;> simp_all [Part.Same]⟩

/-- A block load (R155). -/
theorem unchanged_loadRegs (rs : List Reg) : Unchanged rs [] s (loadRegs rs s) := by
  constructor
  · intro r hr
    rw [loadRegs_V, if_neg hr]
  · intro p _
    rw [loadRegs_eq]
    cases p <;> simp [Part.Same, State.byteAt]

/-- The skips write no memory. -/
@[simp] theorem skipIf_mem (c : Bool) : (s.skipIf c).mem = s.mem := by rw [State.skipIf_eq]; rfl

end Operations

/-! ## What an instruction may write (R48)

The frame of every instruction, proved once; what it says of the timers, the run state, the keypad and the driver's own fields
is read off `mayWritePart`. -/

/-- The frame of `i` between the states `s` and `t`: the W column of R48, and the canonical form of memory kept. -/
structure ExecFrame (i : Instr) (s t : State) : Prop where
  regs : ∀ r, mayWriteReg i r = false → t.V r = s.V r
  parts : ∀ p, mayWritePart i p = false → p.Same s t
  memory : s.mem.wf = true → t.mem.wf = true

section ExecFrame

variable {i : Instr} {s t : State}

/-- An update that changes nothing but `rs` and `ps` meets the frame of an instruction that may write them. -/
theorem ExecFrame.of_unchanged {rs : List Reg} {ps : List Part} (h : Unchanged rs ps s t)
    (hr : ∀ r ∈ rs, mayWriteReg i r = true) (hp : ∀ p ∈ ps, mayWritePart i p = true)
    (hm : s.mem.wf = true → t.mem.wf = true) : ExecFrame i s t where
  regs r n := h.1 r fun m => by simp [hr r m] at n
  parts p n := h.2 p fun m => by simp [hp p m] at n
  memory := hm

/-- An instruction answers one state. -/
theorem exec_unique {u : State} (h : exec i s = .next t) (e : exec i s = .next u) : t = u :=
  Host.Outcome.next.inj (h.symm.trans e)

theorem execFrame_ret (h : exec .ret s = .next t) : ExecFrame .ret s t := by
  obtain ⟨-, e⟩ | ⟨_, e⟩ := exec_ret_cases s
  · obtain rfl := exec_unique h e
    exact .of_unchanged (unchanged_halt s _) (by simp) (by simp [mayWritePart]) id
  · obtain rfl := exec_unique h e
    exact .of_unchanged (unchanged_stack_pc s _ _ _) (by simp) (by simp [mayWritePart]) id

theorem execFrame_call {nnn : Addr12} (h : exec (.call nnn) s = .next t) : ExecFrame (.call nnn) s t := by
  obtain ⟨-, e⟩ | ⟨_, e⟩ := exec_call_cases nnn s
  · obtain rfl := exec_unique h e
    exact .of_unchanged (unchanged_halt s _) (by simp) (by simp [mayWritePart]) id
  · obtain rfl := exec_unique h e
    exact .of_unchanged (unchanged_stack_pc s _ _ _) (by simp) (by simp [mayWritePart]) id

theorem execFrame_ldVxK {x : Reg} (h : exec (.ldVxK x) s = .next t) : ExecFrame (.ldVxK x) s t := by
  obtain e | ⟨k, -, -, e⟩ | ⟨-, -, e⟩ := exec_ldVxK_cases x s
  · obtain rfl := exec_unique h e
    exact .of_unchanged (unchanged_rewind s) (by simp) (by simp [mayWritePart]) id
  · obtain rfl := exec_unique h e
    exact .of_unchanged (((unchanged_setKwKey s k).trans (unchanged_setKwState _ _)).trans (unchanged_rewind _))
      (by simp) (by simp [mayWritePart]) id
  · obtain rfl := exec_unique h e
    exact .of_unchanged ((unchanged_setV s x _).trans (unchanged_setKwState _ _))
      (by simp [mayWriteReg]) (by simp [mayWritePart]) id

/-- EVERY INSTRUCTION KEEPS TO ITS FRAME: the cases are the forms of update in which the meanings end. -/
theorem exec_frame (h : exec i s = .next t) : ExecFrame i s t := by
  cases i with
  | ldImm x _ | addImm x _ | ldReg x _ | orReg x _ | andReg x _ | xorReg x _ | ldVxDt x =>
    obtain rfl := exec_unique h rfl
    exact .of_unchanged (unchanged_setV s x _) (by simp [mayWriteReg]) (by simp) id
  | addReg x _ | sub x _ | shr x _ | subn x _ | shl x _ =>
    obtain rfl := exec_unique h rfl
    exact .of_unchanged (unchanged_setResultFlag s x _ _) (by simp [mayWriteReg]) (by simp) id
  | rnd x _ =>
    obtain rfl := exec_unique h rfl
    exact .of_unchanged ((unchanged_setV s x _).trans (unchanged_countDraw _)) (by simp [mayWriteReg])
      (by simp [mayWritePart]) id
  | seImm _ _ | sneImm _ _ | seReg _ _ | sneReg _ _ | skp _ | sknp _ =>
    obtain rfl := exec_unique h rfl
    exact .of_unchanged (unchanged_skipIf s _) (by simp) (by simp [mayWritePart]) (by simp)
  | jp _ | jpV0 _ =>
    obtain rfl := exec_unique h rfl
    exact .of_unchanged (unchanged_setPc s _) (by simp) (by simp [mayWritePart]) id
  | ldI _ | addI _ | ldF _ =>
    obtain rfl := exec_unique h rfl
    exact .of_unchanged (unchanged_setI s _) (by simp) (by simp [mayWritePart]) id
  | ldDtVx _ =>
    obtain rfl := exec_unique h rfl
    exact .of_unchanged (unchanged_setDt s _) (by simp) (by simp [mayWritePart]) id
  | ldStVx _ =>
    obtain rfl := exec_unique h rfl
    exact .of_unchanged (unchanged_setSt s _) (by simp) (by simp [mayWritePart]) id
  | cls =>
    obtain rfl := exec_unique h rfl
    exact .of_unchanged (unchanged_setDisp s _) (by simp) (by simp [mayWritePart]) id
  | drw x y n =>
    obtain rfl := exec_unique h (exec_drw x y n s)
    exact .of_unchanged ((unchanged_setDisp s _).trans (unchanged_setV _ .vf _)) (by simp [mayWriteReg])
      (by simp [mayWritePart]) id
  | ldB x =>
    obtain rfl := exec_unique h (exec_ldB x s)
    exact .of_unchanged (unchanged_storeFrom s _ _ _) (by simp) (by simp [mayWritePart]) (storeFrom_wf _ _ _)
  | ldMemVx x =>
    obtain rfl := exec_unique h (exec_ldMemVx x s)
    exact .of_unchanged (unchanged_storeFrom s _ _ _) (by simp) (by simp [mayWritePart]) (storeFrom_wf _ _ _)
  | ldVxMem x =>
    obtain rfl := exec_unique h (exec_ldVxMem x s)
    refine .of_unchanged (unchanged_loadRegs s (regsUpTo x)) ?_ (by simp) (by rw [loadRegs_eq]; exact id)
    simp [mayWriteReg, mem_regsUpTo]
  | ret => exact execFrame_ret h
  | call _ => exact execFrame_call h
  | ldVxK _ => exact execFrame_ldVxK h
  | unrecognized _ =>
    obtain rfl := exec_unique h rfl
    exact .of_unchanged (Unchanged.refl _) (by simp) (by simp) id

/-! Which instructions may write a timer or the run state, and the parts that none may write. -/

theorem mayWritePart_dt (i : Instr) : mayWritePart i .dt = true ↔ ∃ x, i = .ldDtVx x := by
  cases i <;> simp [mayWritePart]

theorem mayWritePart_st (i : Instr) : mayWritePart i .st = true ↔ ∃ x, i = .ldStVx x := by
  cases i <;> simp [mayWritePart]

theorem mayWritePart_run (i : Instr) : mayWritePart i .run = true ↔ i = .ret ∨ ∃ nnn, i = .call nnn := by
  cases i <;> simp [mayWritePart]

theorem mayWritePart_phase (i : Instr) : mayWritePart i .phase = false := by cases i <;> rfl

theorem mayWritePart_key (i : Instr) : mayWritePart i .key = false := by cases i <;> rfl

/-- An instruction leaves the delay timer alone, or is FX15 and sets it to VX. -/
theorem exec_dt_cases (h : exec i s = .next t) : t.dt = s.dt ∨ ∃ x, i = .ldDtVx x ∧ t.dt = s.V x := by
  cases hw : mayWritePart i .dt with
  | false => exact .inl ((exec_frame h).parts .dt hw)
  | true =>
    obtain ⟨x, rfl⟩ := (mayWritePart_dt i).1 hw
    obtain rfl := exec_unique h rfl
    exact .inr ⟨x, rfl, by simp⟩

/-- An instruction leaves the sound timer alone, or is FX18 and sets it to VX. -/
theorem exec_st_cases (h : exec i s = .next t) : t.st = s.st ∨ ∃ x, i = .ldStVx x ∧ t.st = s.V x := by
  cases hw : mayWritePart i .st with
  | false => exact .inl ((exec_frame h).parts .st hw)
  | true =>
    obtain ⟨x, rfl⟩ := (mayWritePart_st i).1 hw
    obtain rfl := exec_unique h rfl
    exact .inr ⟨x, rfl, by simp⟩

/-- An instruction leaves the run state with its reason alone, or is a RET on an empty stack or a CALL on a full one, and halts
the core (R202, R203). -/
theorem exec_run_cases (h : exec i s = .next t) :
    (t.runState = s.runState ∧ t.haltReason = s.haltReason) ∨
    (i = .ret ∧ s.sp.val = 0 ∧ t = s.halt .stackUnderflow) ∨
    (∃ nnn, i = .call nnn ∧ s.sp.val = Config.stackDepth ∧ t = s.halt .stackOverflow) := by
  cases hw : mayWritePart i .run with
  | false => exact .inl ((exec_frame h).parts .run hw)
  | true =>
    obtain rfl | ⟨nnn, rfl⟩ := (mayWritePart_run i).1 hw
    · obtain ⟨hsp, e⟩ | ⟨_, e⟩ := exec_ret_cases s
      · exact .inr (.inl ⟨rfl, hsp, exec_unique h e⟩)
      · obtain rfl := exec_unique h e
        exact .inl ⟨rfl, rfl⟩
    · obtain ⟨hsp, e⟩ | ⟨_, e⟩ := exec_call_cases nnn s
      · exact .inr (.inr ⟨nnn, rfl, hsp, exec_unique h e⟩)
      · obtain rfl := exec_unique h e
        exact .inl ⟨rfl, rfl⟩

end ExecFrame

/-! ## What a transition can do

`step` is inverted once into R245's three operations; the tick and the poll have their own lemmas. -/

/-- The state on which the instruction of a STEP from `s` acts, `more` STEPs being left in the frame after it (R72). -/
def State.stepStart (s : State) (more : Nat) : State := (s.setPhase (Phase.remaining more)).advance

section Step

variable {s t : State}

/-- A transition is a STEP or a TICK of a running machine, or a poll: at its place in the frame, or of a machine that does not
run (R245, R217 to R219). -/
theorem step_cases (h : step s = .next t) :
    (∃ more, s.runState = .running ∧ s.phase = .instr more ∧ exec (decode s.fetch) (s.stepStart more) = .next t) ∨
    (s.runState = .running ∧ s.phase = .tick ∧ t = s.tick.setPhase .poll) ∨
    ((s.runState ≠ .running ∨ s.phase = .poll) ∧ t = s.poll) := by
  unfold step blockStep at h
  cases hr : s.runState with
  | halted =>
    cases ho : s.runOver with
    | true => simp [hr, ho] at h
    | false =>
      simp only [hr, ho] at h
      exact .inr (.inr ⟨.inl (by simp), (Host.Outcome.next.inj h).symm⟩)
  | paused =>
    simp only [hr] at h
    exact .inr (.inr ⟨.inl (by simp), (Host.Outcome.next.inj h).symm⟩)
  | running =>
    cases hp : s.phase with
    | instr more =>
      simp only [hr, hp, instrStep_eq] at h
      exact .inl ⟨more, rfl, rfl, h⟩
    | tick =>
      simp only [hr, hp] at h
      exact .inr (.inl ⟨rfl, rfl, (Host.Outcome.next.inj h).symm⟩)
    | poll =>
      simp only [hr, hp] at h
      exact .inr (.inr ⟨.inr rfl, (Host.Outcome.next.inj h).symm⟩)

/-- A request keeps the reason and whether the core is HALTED, or is a quit (R216). -/
theorem applyReq_cases (s : State) (r : RunReq) :
    ((s.applyReq r).haltReason = s.haltReason ∧ ((s.applyReq r).runState = .halted ↔ s.runState = .halted)) ∨
    s.applyReq r = s.halt .quit := by
  unfold State.applyReq
  split <;> simp_all

theorem applyReq_none (s : State) : s.applyReq .none = s := by
  unfold State.applyReq
  split <;> simp_all

/-- Key events leave the run state and its reason alone (R225). -/
theorem applyKeys_run (l : List KeyEvent) (s : State) :
    (l.foldl State.applyKey s).runState = s.runState ∧ (l.foldl State.applyKey s).haltReason = s.haltReason := by
  rw [applyKeys_eq]
  exact ⟨rfl, rfl⟩

/-- A poll keeps the reason and whether the core is HALTED, or takes a quit (R216). -/
theorem poll_run_cases (s : State) :
    (s.poll.haltReason = s.haltReason ∧ (s.poll.runState = .halted ↔ s.runState = .halted)) ∨
    (s.poll.haltReason = .quit ∧ s.poll.runState = .halted) := by
  obtain ⟨kr, kh⟩ := applyKeys_run (nextInput s.inputs).keys s
  obtain ⟨hh, hr⟩ | e := applyReq_cases ((nextInput s.inputs).keys.foldl State.applyKey s) (nextInput s.inputs).req
  · exact .inl ⟨hh.trans kh, kr ▸ hr⟩
  · exact .inr ⟨congrArg State.haltReason e, congrArg State.runState e⟩

/-- A poll without a request keeps the run state. -/
theorem poll_runState_of_none {s : State} (h : (nextInput s.inputs).req = .none) : s.poll.runState = s.runState := by
  unfold State.poll State.applyInput
  rw [h, applyReq_none]
  exact (applyKeys_run _ s).1

/-- A poll without a key event keeps the keypad. -/
theorem poll_key_of_nil {s : State} (h : (nextInput s.inputs).keys = []) : s.poll.key = s.key := by
  unfold State.poll State.applyInput
  rw [h, applyReq_eq]
  rfl

end Step

/-! ## The invariant

Each operation of R245 keeps it, by a lemma of its own. The clauses about the halt reason are a predicate of their own, which an
instruction and a poll keep for their own causes of a halt. -/

/-- The clauses of `State.Inv` about the run state and its reason (R42, R204). -/
def State.ReasonFits (s : State) : Prop :=
  (s.runState = .halted ↔ s.haltReason ≠ .none) ∧ ∀ a, s.haltReason ≠ .addressRange a

section Invariant

variable {i : Instr} {s t : State} {more : Nat}

theorem State.Inv.reasonFits (h : s.Inv) : s.ReasonFits := ⟨h.halted, h.address⟩

theorem exec_reasonFits (h : exec i s = .next t) (hs : s.ReasonFits) : t.ReasonFits := by
  obtain ⟨hr, hh⟩ | ⟨-, -, rfl⟩ | ⟨_, -, -, rfl⟩ := exec_run_cases h
  · simpa only [State.ReasonFits, hr, hh] using hs
  · simp [State.ReasonFits]
  · simp [State.ReasonFits]

theorem poll_reasonFits (hs : s.ReasonFits) : s.poll.ReasonFits := by
  obtain ⟨hh, hr⟩ | ⟨hh, hr⟩ := poll_run_cases s
  · simpa only [State.ReasonFits, hr, hh] using hs
  · simp [State.ReasonFits, hr, hh]

/-- No instruction pauses a running machine. -/
theorem exec_ne_paused (h : exec i s = .next t) (hs : s.runState = .running) : t.runState ≠ .paused := by
  obtain ⟨hr, -⟩ | ⟨-, -, rfl⟩ | ⟨_, -, -, rfl⟩ := exec_run_cases h
  · simp [hr, hs]
  · simp
  · simp

theorem remaining_eq_instr {n m : Nat} (h : Phase.remaining n = .instr m) : n = m + 1 := by
  cases n with
  | zero => nomatch h
  | succ k => exact congrArg (· + 1) (Phase.instr.inj h)

/-- A STEP keeps the invariant. -/
theorem inv_of_exec (hs : s.Inv) (hr : s.runState = .running) (hp : s.phase = .instr more)
    (h : exec i (s.stepStart more) = .next t) : t.Inv := by
  have hf := exec_frame h
  have hphase : t.phase = Phase.remaining more := hf.parts .phase (mayWritePart_phase i)
  obtain ⟨hhalted, haddress⟩ := exec_reasonFits h hs.reasonFits
  exact {
    memory := hf.memory hs.memory
    halted := hhalted
    address := haddress
    frame := fun m e => by
      have hmore := hs.frame more hp
      have hm := remaining_eq_instr (hphase.symm.trans e)
      omega
    paused := fun e => absurd e (exec_ne_paused h hr) }

/-- A TICK keeps the invariant. -/
theorem inv_tick (hs : s.Inv) (hr : s.runState = .running) : (s.tick.setPhase .poll).Inv where
  memory := hs.memory
  halted := hs.halted
  address := hs.address
  frame _ e := nomatch e
  paused e := nomatch hr.symm.trans e

/-- A poll keeps the invariant. -/
theorem inv_poll (hs : s.Inv) : s.poll.Inv := by
  obtain ⟨hhalted, haddress⟩ := poll_reasonFits hs.reasonFits
  exact {
    memory := by rw [poll_eq]; exact hs.memory
    halted := hhalted
    address := haddress
    frame := fun m e => by
      have hm := remaining_eq_instr (n := stepsPerFrame) e
      omega
    paused := fun _ => rfl }

end Invariant

/-! ## The obligations of the family 10_state.md -/

/-- Settles O48: each of R245's three operations keeps the invariant. -/
theorem stepKeepsTheInvariant : Obligations.StepKeepsTheInvariant := by
  intro s t hs h
  obtain ⟨more, hr, hp, he⟩ | ⟨hr, -, rfl⟩ | ⟨-, rfl⟩ := step_cases h
  · exact inv_of_exec hs hr hp he
  · exact inv_tick hs hr
  · exact inv_poll hs

/-- Settles O46: the frame of every instruction, without its clause about the form of memory. -/
theorem instructionsWriteOnlyTheirOwnState : Obligations.InstructionsWriteOnlyTheirOwnState :=
  fun _ _ _ h => ⟨(exec_frame h).regs, (exec_frame h).parts⟩

/-- The result and then the flag leave 0 or 1 in VF, whatever the result's register (D11). -/
theorem setResultFlag_vf (s : State) (x : Reg) (b : VReg) (c : Bool) :
    (s.setResultFlag x b c).V .vf = 0#8 ∨ (s.setResultFlag x b c).V .vf = 1#8 := by
  simpa using flagByte_cases c

/-- Settles O47: five of the six end in `setResultFlag`, DXYN in the write of its collision flag. -/
theorem flagWritersLeaveZeroOrOne : Obligations.FlagWritersLeaveZeroOrOne := by
  intro i x y n s hi
  simp only [List.mem_cons, List.not_mem_nil, or_false] at hi
  obtain rfl | rfl | rfl | rfl | rfl | rfl := hi
  · exact ⟨_, rfl, setResultFlag_vf s x _ _⟩
  · exact ⟨_, rfl, setResultFlag_vf s x _ _⟩
  · exact ⟨_, rfl, setResultFlag_vf s x _ _⟩
  · exact ⟨_, rfl, setResultFlag_vf s x _ _⟩
  · exact ⟨_, rfl, setResultFlag_vf s x _ _⟩
  · exact ⟨_, exec_drw x y n s, by simpa using flagByte_cases _⟩

/-- Settles O51: a STEP by the one instruction that may write each timer, a TICK by its count, a poll by its frame. -/
theorem timersFallExceptWhenSet : Obligations.TimersFallExceptWhenSet := by
  intro s t h
  obtain ⟨more, hr, hp, he⟩ | ⟨hr, hp, rfl⟩ | ⟨hw, rfl⟩ := step_cases h
  · refine ⟨fun ⟨_, hp'⟩ => (nomatch hp.symm.trans hp'), fun _ => ⟨?_, ?_⟩⟩
    · exact (exec_dt_cases he).imp_right fun hx => ⟨hr, ⟨more, hp⟩, hx⟩
    · exact (exec_st_cases he).imp_right fun hx => ⟨hr, ⟨more, hp⟩, hx⟩
  · exact ⟨fun _ => ⟨toNat_tickDown s.dt, toNat_tickDown s.st⟩, fun hn => absurd ⟨hr, hp⟩ hn⟩
  · refine ⟨fun ⟨hr, hp⟩ => ?_, fun _ => ?_⟩
    · simp [hr, hp] at hw
    · rw [poll_eq]
      exact ⟨.inl rfl, .inl rfl⟩

/-- Settles O52: in a STEP the run state changes by the two fatal conditions and the keypad not at all, in a TICK neither does,
and a poll without a request, or without a key event, keeps the one or the other. -/
theorem runStateAndKeypadChangeOnlyByTheirCauses : Obligations.RunStateAndKeypadChangeOnlyByTheirCauses := by
  intro s t h
  obtain ⟨more, hr, hp, he⟩ | ⟨-, -, rfl⟩ | ⟨hw, rfl⟩ := step_cases h
  · have hkey : t.key = s.key := (exec_frame he).parts .key (mayWritePart_key _)
    refine ⟨fun hne => .inl ⟨hr, ⟨more, hp⟩, ?_⟩, fun hne => absurd hkey hne⟩
    obtain ⟨hsame, -⟩ | ⟨hi, hsp, rfl⟩ | ⟨nnn, hi, hsp, rfl⟩ := exec_run_cases he
    · exact absurd hsame hne
    · exact ⟨rfl, .inl ⟨hi, hsp, rfl⟩⟩
    · exact ⟨rfl, .inr ⟨nnn, hi, hsp, rfl⟩⟩
  · exact ⟨fun hne => absurd rfl hne, fun hne => absurd rfl hne⟩
  · refine ⟨fun hne => .inr ⟨?_, fun hq => hne (poll_runState_of_none hq)⟩,
      fun hne => ⟨hw, fun hq => hne (poll_key_of_nil hq)⟩⟩
    cases hr : s.runState with
    | halted => exact absurd ((poll_halted hr).1.trans hr.symm) hne
    | paused => exact .inl rfl
    | running => exact .inr (hw.resolve_left (by simp [hr]))

/-- Settles O49: at reset nothing is listed in memory, the core runs without a reason, and a frame begins. -/
theorem resetMeetsTheInvariant : Obligations.ResetMeetsTheInvariant where
  memory := Memory.wf_nil
  halted := by decide
  address _ e := nomatch e
  frame m e := by
    have hm := remaining_eq_instr (n := stepsPerFrame) e
    omega
  paused e := nomatch e

/-- Past the 80 bytes of the font the reset content is 0 (R52). -/
theorem resetByte_of_le {a : Nat} (h : 80 ≤ a) : resetByte a = 0#8 := by
  have hfont : font.length = 80 := rfl
  simp [resetByte, Config.fontBase, List.getElem?_eq_none (hfont ▸ h : font.length ≤ a)]

/-- Settles O59: the font by evaluation, the rest by the value of each field at reset. -/
theorem resetHasTheTabledValues : Obligations.ResetHasTheTabledValues := by
  have hfont : (List.range 80).map State.reset.mem.read = font := by decide
  refine ⟨hfont, fun a ha => resetByte_of_le ha, rfl, rfl, rfl, rfl, ?_, rfl, ?_, rfl, rfl, ?_, ?_, rfl, rfl⟩
  · intro r
    simp [State.V, State.reset]
  · intro k hk
    simp [State.reset, hk]
  · exact Display.cell_clear
  · intro k
    simp [State.keyDown, State.reset]

end Sys2Proof.Machine

/-! # Proofs: memory and the bytes of an instruction (20_memory.md) -/

/-! ## The fields of a word as numbers (R57, R71)

How the decoder's fields and the two stored bytes read as plain arithmetic, which is how the statements write them. -/

namespace Sys2Proof

/-- The high byte is stored first (R57). -/
theorem toNat_wordOfBytes (hi lo : Byte) : (wordOfBytes hi lo).toNat = hi.toNat * 256 + lo.toNat := by
  rw [wordOfBytes, BitVec.toNat_append, ← Nat.shiftLeft_add_eq_or_of_lt lo.isLt, Nat.shiftLeft_eq]

theorem toNat_fieldClass (w : Word) : (fieldClass w).toNat = w.toNat / 4096 := by
  have := w.isLt
  simp only [fieldClass, BitVec.extractLsb'_toNat, Nat.shiftRight_eq_div_pow]
  omega

theorem toNat_fieldN (w : Word) : (fieldN w).toNat = w.toNat % 16 := by
  simp [fieldN]

theorem toNat_fieldNN (w : Word) : (fieldNN w).toNat = w.toNat % 256 := by
  simp [fieldNN]

/-! ## Decoding after encoding (R86, R87) -/

/-- A word of R81's list decodes to the default row, which holds it. -/
theorem decode_of_isUnrecognizedWord {w : Word} (h : isUnrecognizedWord w = true) : decode w = .unrecognized w := by
  simp only [isUnrecognizedWord, ← toNat_fieldClass, ← toNat_fieldN, ← toNat_fieldNN] at h
  unfold decode
  split at h
  case h_1 class0 =>
    have hw : w ≠ 0x00E0#16 ∧ w ≠ 0x00EE#16 := by simpa using h
    simp [class0, decodeClass0, hw]
  case h_2 class5 =>
    have hn : fieldN w ≠ 0x0#4 := by simpa [BitVec.toNat_eq] using h
    simp [class5, decodeClass5, hn]
  case h_3 class9 =>
    have hn : fieldN w ≠ 0x0#4 := by simpa [BitVec.toNat_eq] using h
    simp [class9, decodeClass9, hn]
  case h_4 class8 =>
    simp only [List.contains_cons, List.contains_nil, Bool.or_eq_true, beq_iff_eq, Bool.or_false] at h
    obtain hn | hn | hn | hn | hn | hn | hn := h <;> simp [class8, decodeClass8, hn]
  case h_5 classE =>
    have hnn : fieldNN w ≠ 0x9E#8 ∧ fieldNN w ≠ 0xA1#8 := by simpa [BitVec.toNat_eq] using h
    simp [classE, decodeClassE, hnn]
  case h_6 classF =>
    have hnn : fieldNN w ∉ [0x07#8, 0x0A#8, 0x15#8, 0x18#8, 0x1E#8, 0x29#8, 0x33#8, 0x55#8, 0x65#8] := by
      simpa [BitVec.toNat_eq] using h
    simp only [List.mem_cons, not_or] at hnn
    simp [classF, decodeClassF, hnn]
  case h_7 => simp at h

/-- The decoder reads back the operands of every row. -/
theorem decode_encode {i : Instr} (h : i.wellFormed = true) : decode (encode i) = i := by
  cases i with
  | unrecognized w => exact decode_of_isUnrecognizedWord h
  | cls | ret => rfl
  | _ => simp [encode, decode, decodeClass5, decodeClass8, decodeClass9, decodeClassE, decodeClassF]

end Sys2Proof

namespace Sys2Proof.Machine

/-! ## The address policy `wrap` (R58, D3) -/

/-- Only the four instructions that reach data memory take a policy, and this hardware's is `wrap` (D3). -/
theorem exec_eq_execUnder_wrap (i : Instr) (s : State) : exec i s = execUnder .wrap i s := by
  cases i <;> rfl

theorem instrStep_eq_instrStepUnder_wrap (s : State) : instrStep s = instrStepUnder .wrap s := by
  have hexec : exec = execUnder .wrap := funext fun i => funext (exec_eq_execUnder_wrap i)
  exact congrArg (instrStepWith .wrap · s) hexec

/-- Addresses of one cell read one byte (R58). -/
theorem State.byteAt_congr {w w' : Nat} (s : State) {a : BitVec w} {c : BitVec w'} (h : cellIndex a = cellIndex c) :
    s.byteAt a = s.byteAt c :=
  congrArg s.mem.read h

/-! ## Code stored where the machine fetches (R66, D5) -/

theorem effAddr_zero (base : IReg) : effAddr base 0 = base := BitVec.add_zero base

theorem effAddr_one (base : IReg) : effAddr base 1 = base + 1#Config.iWidth := rfl

/-- The byte FX55 stores at I plus `k` is register `k`, for each register up to VX. -/
theorem storeFrom_regs_byteAt {s : State} (hs : s.mem.wf = true) (base : IReg) (x : Reg) {k : Nat} (hk : k ≤ x.toNat) :
    (storeFrom base 0 ((regsUpTo x).map s.V) s).byteAt (effAddr base k) = s.V (BitVec.ofNat 4 k) := by
  have hx := x.isLt
  have hlen : ((regsUpTo x).map s.V).length = x.toNat + 1 := by rw [List.length_map, length_regsUpTo]
  have hbyte := storeFrom_byteAt base 0 ((regsUpTo x).map s.V) hs k (by omega) (by rw [hlen, Config.memSize]; omega)
  rw [Nat.zero_add] at hbyte
  rw [hbyte, List.getElem_map, getElem_regsUpTo]

/-! ## The obligations of the family 20_memory.md -/

/-- Settles O36: the two bytes fetched at the pc are those FX55 stored at I and I + 1, which are V0 and V1. -/
theorem storedCodeIsFetchedNext : Obligations.StoredCodeIsFetchedNext := by
  intro x s hs hx hI
  have hpc : (storeFrom s.I 0 ((regsUpTo x).map s.V) s).pc = s.pc := by rw [storeFrom_eq]
  refine ⟨_, exec_ldMemVx x s, hpc, ?_⟩
  have hV0 := storeFrom_regs_byteAt hs s.I x (Nat.zero_le _)
  have hV1 := storeFrom_regs_byteAt hs s.I x hx
  rw [effAddr_zero] at hV0
  rw [effAddr_one] at hV1
  rw [State.fetch, toNat_wordOfBytes, hpc, ← hI, hV0, hV1]

/-- Settles O7: a word's two bytes are its number in base 256, and decoding reads back what encoding wrote. -/
theorem bytesDecodeHighByteFirst : Obligations.BytesDecodeHighByteFirst := by
  refine ⟨fun hi lo rest => ⟨wordOfBytes hi lo, toNat_wordOfBytes hi lo, rfl⟩, rfl, fun _ => rfl, fun i rest h => ?_⟩
  simp [encodeBytes, decodeBytes, decode_encode h]

/-- Settles O10: the instructions and the STEP by the policy's own value, the bytes by the cell an address reaches. -/
theorem hardwareFollowsTheWrapPolicy : Obligations.HardwareFollowsTheWrapPolicy := by
  refine ⟨exec_eq_execUnder_wrap, instrStep_eq_instrStepUnder_wrap, fun s a c h => s.byteAt_congr h, fun s a c b hs => ?_⟩
  rw [State.setByte_byteAt hs]
  exact if_congr eq_comm rfl rfl

end Sys2Proof.Machine

/-! # Proofs: the encoding (30_encoding.md) -/

namespace Sys2Proof

/-! ## A word from the digits its row fixes (R71, R80)

A row fixes the class, the class and N, or the class and NN; its word is these digits with the word's other fields. -/

section Fields

variable {w : Word} {c n : Nibble} {nn : Byte}

theorem packNNN_of_class (hc : fieldClass w = c) : packNNN c (fieldNNN w) = w := hc ▸ packNNN_fields w

theorem packXNN_of_class (hc : fieldClass w = c) : packXNN c (fieldX w) (fieldNN w) = w := hc ▸ packXNN_fields w

theorem packXYN_of_class (hc : fieldClass w = c) : packXYN c (fieldX w) (fieldY w) (fieldN w) = w := hc ▸ packXYN_fields w

theorem packXYN_of_class_n (h : fieldClass w = c ∧ fieldN w = n) : packXYN c (fieldX w) (fieldY w) n = w :=
  h.2 ▸ packXYN_of_class h.1

theorem packXNN_of_class_nn (h : fieldClass w = c ∧ fieldNN w = nn) : packXNN c (fieldX w) nn = w :=
  h.2 ▸ packXNN_of_class h.1

end Fields

/-! ## Encoding after decoding (R86, R87) -/

/-- `i` is a well-formed instruction and `w` its word. -/
def IsInstrOf (w : Word) (i : Instr) : Prop := i.wellFormed = true ∧ encode i = w

section Decode

variable {w : Word}

theorem isInstrOf_unrecognized (h : isUnrecognizedWord w = true) : IsInstrOf w (.unrecognized w) := ⟨h, rfl⟩

/-- In classes 5 and 9 a last digit other than 0 is on R81's list. -/
theorem isUnrecognizedWord_of_fieldN_ne_zero (hc : fieldClass w = 0x5#4 ∨ fieldClass w = 0x9#4) (hn : fieldN w ≠ 0x0#4) :
    isUnrecognizedWord w = true := by
  obtain hc | hc := hc <;>
    simpa [isUnrecognizedWord, ← toNat_fieldClass, ← toNat_fieldN, hc, BitVec.toNat_eq] using hn

theorem isInstrOf_decodeClass0 (hc : fieldClass w = 0x0#4) : IsInstrOf w (decodeClass0 w) := by
  unfold decodeClass0
  split
  · next h => exact ⟨rfl, h.symm⟩
  · next hcls =>
    split
    · next h => exact ⟨rfl, h.symm⟩
    · next hret => exact isInstrOf_unrecognized (by simp [isUnrecognizedWord, ← toNat_fieldClass, hc, hcls, hret])

theorem isInstrOf_decodeClass5 (hc : fieldClass w = 0x5#4) : IsInstrOf w (decodeClass5 w) := by
  unfold decodeClass5
  split
  · next hn => exact ⟨rfl, packXYN_of_class_n ⟨hc, hn⟩⟩
  · next hn => exact isInstrOf_unrecognized (isUnrecognizedWord_of_fieldN_ne_zero (.inl hc) hn)

theorem isInstrOf_decodeClass8 (hc : fieldClass w = 0x8#4) : IsInstrOf w (decodeClass8 w) := by
  unfold decodeClass8
  split
  case h_10 =>
    have hlt := (fieldN w).isLt
    have hn : (fieldN w).toNat ∈ [0x8, 0x9, 0xA, 0xB, 0xC, 0xD, 0xF] := by
      simp only [List.mem_cons, List.not_mem_nil, or_false, imp_false] at *
      omega
    exact isInstrOf_unrecognized (by simpa [isUnrecognizedWord, ← toNat_fieldClass, ← toNat_fieldN, hc] using hn)
  all_goals
    next hn => exact ⟨rfl, packXYN_of_class_n ⟨hc, BitVec.eq_of_toNat_eq hn⟩⟩

theorem isInstrOf_decodeClass9 (hc : fieldClass w = 0x9#4) : IsInstrOf w (decodeClass9 w) := by
  unfold decodeClass9
  split
  · next hn => exact ⟨rfl, packXYN_of_class_n ⟨hc, hn⟩⟩
  · next hn => exact isInstrOf_unrecognized (isUnrecognizedWord_of_fieldN_ne_zero (.inr hc) hn)

theorem isInstrOf_decodeClassE (hc : fieldClass w = 0xE#4) : IsInstrOf w (decodeClassE w) := by
  unfold decodeClassE
  split
  · next hn => exact ⟨rfl, packXNN_of_class_nn ⟨hc, hn⟩⟩
  · next hskp =>
    split
    · next hn => exact ⟨rfl, packXNN_of_class_nn ⟨hc, hn⟩⟩
    · next hsknp =>
      refine isInstrOf_unrecognized ?_
      simpa [isUnrecognizedWord, ← toNat_fieldClass, ← toNat_fieldNN, hc, BitVec.toNat_eq] using And.intro hskp hsknp

theorem isInstrOf_decodeClassF (hc : fieldClass w = 0xF#4) : IsInstrOf w (decodeClassF w) := by
  unfold decodeClassF
  repeat' split
  case isFalse =>
    refine isInstrOf_unrecognized ?_
    simp_all [isUnrecognizedWord, ← toNat_fieldClass, ← toNat_fieldNN, BitVec.toNat_eq]
  all_goals
    next hn => exact ⟨rfl, packXNN_of_class_nn ⟨hc, hn⟩⟩

/-- What a word decodes to is a well-formed instruction, and the word is its word. -/
theorem isInstrOf_decode (w : Word) : IsInstrOf w (decode w) := by
  unfold decode
  split
  case h_1 hc => exact isInstrOf_decodeClass0 (BitVec.eq_of_toNat_eq hc)
  case h_6 hc => exact isInstrOf_decodeClass5 (BitVec.eq_of_toNat_eq hc)
  case h_9 hc => exact isInstrOf_decodeClass8 (BitVec.eq_of_toNat_eq hc)
  case h_10 hc => exact isInstrOf_decodeClass9 (BitVec.eq_of_toNat_eq hc)
  case h_15 hc => exact isInstrOf_decodeClassE (BitVec.eq_of_toNat_eq hc)
  case h_16 =>
    have hlt := (fieldClass w).isLt
    have hc : (fieldClass w).toNat = 0xF := by
      simp only [imp_false] at *
      omega
    exact isInstrOf_decodeClassF (BitVec.eq_of_toNat_eq hc)
  case h_2 hc | h_3 hc | h_11 hc | h_12 hc => exact ⟨rfl, packNNN_of_class (BitVec.eq_of_toNat_eq hc)⟩
  case h_4 hc | h_5 hc | h_7 hc | h_8 hc | h_13 hc => exact ⟨rfl, packXNN_of_class (BitVec.eq_of_toNat_eq hc)⟩
  case h_14 hc => exact ⟨rfl, packXYN_of_class (BitVec.eq_of_toNat_eq hc)⟩

end Decode

/-! ## The fields of R71 by plain arithmetic on the word -/

section Arithmetic

variable (w : Word)

theorem ofNat_eq_fieldX : BitVec.ofNat 4 (w.toNat / 0x100) = fieldX w := by
  rw [fieldX, BitVec.extractLsb', Nat.shiftRight_eq_div_pow]

theorem ofNat_eq_fieldY : BitVec.ofNat 4 (w.toNat / 0x10) = fieldY w := by
  rw [fieldY, BitVec.extractLsb', Nat.shiftRight_eq_div_pow]

theorem ofNat_eq_fieldN : BitVec.ofNat 4 w.toNat = fieldN w := rfl

theorem ofNat_eq_fieldNN : BitVec.ofNat 8 w.toNat = fieldNN w := rfl

theorem ofNat_eq_fieldNNN : BitVec.ofNat 12 w.toNat = fieldNNN w := rfl

end Arithmetic

/-! ## A word that matches a row, by the kind of the row's pattern (R80) -/

section RowKinds

variable (c n : Nibble) (nn : Byte) (w : Word)

theorem packNNN_of_match (h : w &&& 0xF000#16 = packNNN c 0) : packNNN c (fieldNNN w) = w :=
  packNNN_of_class ((and_maskClass w c).1 h)

theorem packXNN_of_match (h : w &&& 0xF000#16 = packNNN c 0) : packXNN c (fieldX w) (fieldNN w) = w :=
  packXNN_of_class ((and_maskClass w c).1 h)

theorem packXYN_of_match (h : w &&& 0xF000#16 = packNNN c 0) : packXYN c (fieldX w) (fieldY w) (fieldN w) = w :=
  packXYN_of_class ((and_maskClass w c).1 h)

theorem packXYN_of_match_n (h : w &&& 0xF00F#16 = packXYN c 0 0 n) : packXYN c (fieldX w) (fieldY w) n = w :=
  packXYN_of_class_n ((and_maskClassN w c n).1 h)

theorem packXNN_of_match_nn (h : w &&& 0xF0FF#16 = packXNN c 0 nn) : packXNN c (fieldX w) nn = w :=
  packXNN_of_class_nn ((and_maskClassNN w c nn).1 h)

theorem eq_of_match_word {v w : Word} (h : w &&& 0xFFFF#16 = v) : v = w :=
  h.symm.trans BitVec.and_allOnes

end RowKinds

/-! ## Words and rows: each recognized word matches the row of its instruction and no other (R80, R87) -/

/-- The 34 rows are those of the instructions other than the default row. -/
theorem row_mem_opcodeTable_iff (i : Instr) : i.row ∈ opcodeTable ↔ ∀ v, i ≠ .unrecognized v := by
  cases i <;> simp [opcodeTable, Instr.row]

theorem wellFormed_of_row_mem {i : Instr} (h : i.row ∈ opcodeTable) : i.wellFormed = true := by
  cases i with
  | unrecognized w => exact absurd rfl ((row_mem_opcodeTable_iff _).1 h w)
  | _ => rfl

/-- The word of a well-formed instruction matches the instruction's row. -/
theorem encode_and_row_mask (i : Instr) : Laws.RowMatch.Statement i := by
  open Laws.RowMatch in
  cases i
  exacts [cls, ret, jp _, call _, seImm _ _, sneImm _ _, seReg _ _, ldImm _ _, addImm _ _, ldReg _ _, orReg _ _, andReg _ _,
    xorReg _ _, addReg _ _, sub _ _, shr _ _, subn _ _, shl _ _, sneReg _ _, ldI _, jpV0 _, rnd _ _, drw _ _ _, skp _, sknp _,
    ldVxDt _, ldVxK _, ldDtVx _, ldStVx _, addI _, ldF _, ldB _, ldMemVx _, ldVxMem _, unrecognized _]

/-- Every word matches the row of what it decodes to. -/
theorem row_decode_matches (w : Word) : (decode w).row.matches w = true := by
  obtain ⟨hwf, hw⟩ := isInstrOf_decode w
  have hmatch := encode_and_row_mask (decode w) hwf
  rw [hw] at hmatch
  exact beq_iff_eq.2 hmatch

end Sys2Proof

namespace Sys2Proof.Machine

theorem opcodeTable_eq_map_specRows : opcodeTable = specRows.map fun row => ⟨row.1, row.2.1⟩ := rfl

theorem row_of_specRow : ∀ row ∈ specRows, ∀ w, (row.2.2 w).row = ⟨row.1, row.2.1⟩ := by
  simp [specRows, Instr.row]

theorem row_mem_opcodeTable_of_specRow {row : Word × Word × (Word → Instr)} (hr : row ∈ specRows) (w : Word) :
    (row.2.2 w).row ∈ opcodeTable := by
  rw [row_of_specRow row hr w, opcodeTable_eq_map_specRows]
  exact List.mem_map.2 ⟨row, hr, rfl⟩

/-- A word that matches a row is the word of that row's instruction with the word's own fields. -/
theorem encode_of_specRow : ∀ row ∈ specRows, ∀ w : Word, w &&& row.1 = row.2.1 → encode (row.2.2 w) = w := by
  simp only [specRows, ofNat_eq_fieldX, ofNat_eq_fieldY, ofNat_eq_fieldN, ofNat_eq_fieldNN, ofNat_eq_fieldNNN,
    List.forall_mem_cons]
  exact ⟨
    fun _ => eq_of_match_word, -- 00E0
    fun _ => eq_of_match_word, -- 00EE
    packNNN_of_match 0x1#4, -- 1NNN
    packNNN_of_match 0x2#4, -- 2NNN
    packXNN_of_match 0x3#4, -- 3XNN
    packXNN_of_match 0x4#4, -- 4XNN
    packXYN_of_match_n 0x5#4 0x0#4, -- 5XY0
    packXNN_of_match 0x6#4, -- 6XNN
    packXNN_of_match 0x7#4, -- 7XNN
    packXYN_of_match_n 0x8#4 0x0#4, -- 8XY0
    packXYN_of_match_n 0x8#4 0x1#4, -- 8XY1
    packXYN_of_match_n 0x8#4 0x2#4, -- 8XY2
    packXYN_of_match_n 0x8#4 0x3#4, -- 8XY3
    packXYN_of_match_n 0x8#4 0x4#4, -- 8XY4
    packXYN_of_match_n 0x8#4 0x5#4, -- 8XY5
    packXYN_of_match_n 0x8#4 0x6#4, -- 8XY6
    packXYN_of_match_n 0x8#4 0x7#4, -- 8XY7
    packXYN_of_match_n 0x8#4 0xE#4, -- 8XYE
    packXYN_of_match_n 0x9#4 0x0#4, -- 9XY0
    packNNN_of_match 0xA#4, -- ANNN
    packNNN_of_match 0xB#4, -- BNNN
    packXNN_of_match 0xC#4, -- CXNN
    packXYN_of_match 0xD#4, -- DXYN
    packXNN_of_match_nn 0xE#4 0x9E#8, -- EX9E
    packXNN_of_match_nn 0xE#4 0xA1#8, -- EXA1
    packXNN_of_match_nn 0xF#4 0x07#8, -- FX07
    packXNN_of_match_nn 0xF#4 0x0A#8, -- FX0A
    packXNN_of_match_nn 0xF#4 0x15#8, -- FX15
    packXNN_of_match_nn 0xF#4 0x18#8, -- FX18
    packXNN_of_match_nn 0xF#4 0x1E#8, -- FX1E
    packXNN_of_match_nn 0xF#4 0x29#8, -- FX29
    packXNN_of_match_nn 0xF#4 0x33#8, -- FX33
    packXNN_of_match_nn 0xF#4 0x55#8, -- FX55
    packXNN_of_match_nn 0xF#4 0x65#8, -- FX65
    List.forall_mem_nil _⟩

/-- A word that matches a row decodes to that row's instruction, whose word it is. -/
theorem decode_of_specRow {row : Word × Word × (Word → Instr)} (hr : row ∈ specRows) {w : Word} (h : w &&& row.1 = row.2.1) :
    decode w = row.2.2 w := by
  have hwf := wellFormed_of_row_mem (row_mem_opcodeTable_of_specRow hr w)
  calc decode w = decode (encode (row.2.2 w)) := by rw [encode_of_specRow row hr w h]
    _ = row.2.2 w := decode_encode hwf

/-- A row of the table that a word matches is the row of what the word decodes to. -/
theorem eq_row_decode_of_matches {r : OpRow} (hr : r ∈ opcodeTable) {w : Word} (h : r.matches w = true) :
    r = (decode w).row := by
  rw [opcodeTable_eq_map_specRows] at hr
  obtain ⟨row, hrow, rfl⟩ := List.mem_map.1 hr
  rw [decode_of_specRow hrow (beq_iff_eq.1 h), row_of_specRow row hrow w]

/-! ## The assembler's spelling (R84, R86) -/

@[simp] theorem asByte_toNat (nn : Byte) : asByte nn.toNat = some nn := by
  have := nn.isLt
  simp [asByte, Nat.le_of_lt_succ this]

@[simp] theorem asAddr_toNat (nnn : Addr12) : asAddr nnn.toNat = some nnn := by
  have := nnn.isLt
  simp [asAddr, Nat.le_of_lt_succ this]

@[simp] theorem asNibble_toNat (n : Nibble) : asNibble n.toNat = some n := by
  have := n.isLt
  simp [asNibble, Nat.le_of_lt_succ this]

@[simp] theorem asByte_eq_none {n : Nat} : asByte n = none ↔ 0xFF < n := by
  simp [asByte]

@[simp] theorem asAddr_eq_none {n : Nat} : asAddr n = none ↔ 0xFFF < n := by
  simp [asAddr]

@[simp] theorem asNibble_eq_none {n : Nat} : asNibble n = none ↔ 0xF < n := by
  simp [asNibble]

theorem assemble_spelling {i : Instr} {l : AsmLine} (h : spelling i = some l) : assemble l = some i := by
  cases i with
  | unrecognized w => nomatch h
  | _ =>
    obtain rfl := Option.some.inj h
    simp [assemble]

theorem spelling_eq_none (i : Instr) : spelling i = none ↔ ∃ w, i = .unrecognized w := by
  cases i <;> simp [spelling]

theorem assemble_ne_unrecognized (l : AsmLine) (w : Word) : assemble l ≠ some (.unrecognized w) := by
  unfold assemble
  split <;> simp

/-! ## The due STEP (R72) -/

/-- A STEP that is due runs the fetched instruction: neither the count of the frame's steps nor the advance changes the bytes at
the pc. -/
theorem step_of_instr {s : State} {more : Nat} (hr : s.runState = .running) (hp : s.phase = .instr more) :
    step s = exec (decode s.fetch) (s.stepStart more) := by
  simp only [step, blockStep, hr, hp, instrStep_eq]
  rfl

/-! ## The obligations of the family 30_encoding.md -/

/-- Settles O1: the decoder reads back the operands of every row, and the word of the default row. -/
theorem decodeOfEncodeIsTheInstruction : Obligations.DecodeOfEncodeIsTheInstruction :=
  fun _ h => decode_encode h

/-- Settles O2: class by class, what the decoder answers is well formed and has the word's own digits. -/
theorem encodeOfDecodeIsTheWord : Obligations.EncodeOfDecodeIsTheWord := isInstrOf_decode

/-- Settles O3: each of the 34 rows by its kind of pattern. -/
theorem decodeFollowsTheOpcodeTable : Obligations.DecodeFollowsTheOpcodeTable :=
  ⟨rfl, fun _ hr _ h => decode_of_specRow hr h⟩

/-- Settles O4: two rows that match a word are both the row of what it decodes to. -/
theorem noTwoOpcodeRowsMatchOneWord : Obligations.NoTwoOpcodeRowsMatchOneWord := by
  refine ⟨rfl, by decide, fun r hr q hq w hrw hqw => ?_⟩
  exact (eq_row_decode_of_matches hr hrw).trans (eq_row_decode_of_matches hq hqw).symm

/-- Settles O5: the row of what a word decodes to is the only one it may match, and it is one of the 34 unless the word is
unrecognized. -/
theorem unrecognizedWordsAreTheListedOnes : Obligations.UnrecognizedWordsAreTheListedOnes := by
  intro w
  obtain ⟨hwf, hw⟩ := isInstrOf_decode w
  have hown : ∀ v, decode w = .unrecognized v → v = w := fun v e => by rw [← hw, e, encode]
  have hlisted : decode w = .unrecognized w → isUnrecognizedWord w = true := fun e => by rw [e] at hwf; exact hwf
  refine ⟨⟨hlisted, decode_of_isUnrecognizedWord⟩, hown, fun e r hr => ?_, fun hnone => ?_⟩
  · by_contra hmatch
    have hrow := eq_row_decode_of_matches hr (by simpa using hmatch)
    exact (row_mem_opcodeTable_iff _).1 (hrow ▸ hr) w e
  · by_contra hne
    have hmem := (row_mem_opcodeTable_iff (decode w)).2 fun v e => hne (hown v e ▸ e)
    simpa [row_decode_matches w] using hnone _ hmem

/-- Settles O8: spelling and assembling row by row, and a number in a line by the field it is read as. -/
theorem assemblingTheSpellingGivesTheInstruction : Obligations.AssemblingTheSpellingGivesTheInstruction := by
  refine ⟨fun i l h => assemble_spelling h, spelling_eq_none, assemble_ne_unrecognized, ?nn, ?nnn, ?nnnV0, ?nnnI, ?n⟩
  case nn => simp [assemble]
  case nnn => simp [assemble]
  case nnnV0 => simp [assemble]
  case nnnI => simp [assemble]
  case n => simp [assemble]

/-- Settles O6: the decoder evaluated on each word of the table. -/
theorem sampleWordsDecodeAsTheVectorsSay : Obligations.SampleWordsDecodeAsTheVectorsSay := by
  unfold Obligations.SampleWordsDecodeAsTheVectorsSay
  decide

/-- Settles O9: the two bytes are those the STEP fetches, and its instruction acts after the advance. -/
theorem stepRunsTheDecodedInstruction : Obligations.StepRunsTheDecodedInstruction := by
  rintro s more _ hr hp rfl
  exact step_of_instr hr hp

/-- Settles O14: RET, CALL and FX0A by their cases, the instructions that reach data memory by the policy of this hardware, under
which the guard lets each go on (D3). -/
theorem everyInstructionAnswersANextState : Obligations.EveryInstructionAnswersANextState := by
  intro i s
  cases i with
  | ret => obtain ⟨-, e⟩ | ⟨_, e⟩ := exec_ret_cases s <;> exact ⟨_, e⟩
  | call nnn => obtain ⟨-, e⟩ | ⟨_, e⟩ := exec_call_cases nnn s <;> exact ⟨_, e⟩
  | ldVxK x => obtain e | ⟨k, -, -, e⟩ | ⟨-, -, e⟩ := exec_ldVxK_cases x s <;> exact ⟨_, e⟩
  | drw x y n => exact ⟨_, exec_drw x y n s⟩
  | ldB x => exact ⟨_, exec_ldB x s⟩
  | ldMemVx x => exact ⟨_, exec_ldMemVx x s⟩
  | ldVxMem x => exact ⟨_, exec_ldVxMem x s⟩
  | _ => exact ⟨_, rfl⟩

end Sys2Proof.Machine

/-! # Proofs: control flow (40_control_flow.md) -/

namespace Sys2Proof.Machine

/-! ## What the transfers add to the rules of the state's operations -/

/-- A part that the updates may change and that holds its old value again after them counts as unchanged. -/
theorem Unchanged.of_restored {rs : List Reg} {ps ps' : List Part} {s t : State} (h : Unchanged rs ps s t)
    (hp : ∀ p ∈ ps, p ∈ ps' ∨ p.Same s t) : Unchanged rs ps' s t :=
  ⟨h.1, fun p hn => if m : p ∈ ps then (hp p m).resolve_left hn else h.2 p m⟩

theorem unchanged_advance (s : State) : Unchanged [] [.pc] s s.advance := unchanged_setPc s _

/-- A taken skip adds 2 to the pc modulo 2^16, one not taken nothing (R25). -/
theorem toNat_skipIf_pc (s : State) (c : Bool) :
    (s.skipIf c).pc.toNat = if c then (s.pc.toNat + 2) % 65536 else s.pc.toNat := by
  cases c with
  | false => rfl
  | true => exact BitVec.toNat_add s.pc 2#16

/-! ## The jumps and the skips -/

/-- Settles O24: NNN has 12 bits, and so has its sum with a byte at most 13, which the pc holds without a wrap. -/
theorem jumpsGoToTheirTarget : Obligations.JumpsGoToTheirTarget := by
  intro nnn s
  have hnnn : nnn.toNat < 4096 := nnn.isLt
  have hV0 := s.V_lt .v0
  refine ⟨⟨_, rfl, ?_, unchanged_setPc s _⟩, ⟨_, rfl, ?_, unchanged_setPc s _⟩⟩
  · rw [State.setPc_pc, toNat_zext, pow_pcWidth]
    omega
  · rw [State.setPc_pc, BitVec.toNat_add, toNat_zext, toNat_zext, pow_pcWidth]
    omega

/-- Settles O26: each of the four is `skipIf` on its own comparison. -/
theorem skipsCompareAndAdvance : Obligations.SkipsCompareAndAdvance := by
  intro x y nn s
  refine ⟨⟨_, rfl, ?seImm, unchanged_skipIf s _⟩, ⟨_, rfl, ?sneImm, unchanged_skipIf s _⟩,
    ⟨_, rfl, ?seReg, unchanged_skipIf s _⟩, ⟨_, rfl, ?sneReg, unchanged_skipIf s _⟩⟩
  case seImm => simp [toNat_skipIf_pc]
  case sneImm => simp [toNat_skipIf_pc]
  case seReg => simp [toNat_skipIf_pc]
  case sneReg => simp [toNat_skipIf_pc]

/-! ## CALL and RET -/

/-- Settles O25: the two cases of a CALL, and of a write into the stack. -/
theorem callPushesOrOverflows : Obligations.CallPushesOrOverflows := by
  intro nnn s
  have hnnn : nnn.toNat < 4096 := nnn.isLt
  obtain ⟨hfull, e⟩ | ⟨hroom, e⟩ := exec_call_cases nnn s
  · exact ⟨fun h => absurd hfull h.ne, fun _ => ⟨_, e, rfl, rfl, unchanged_halt s _⟩⟩
  · refine ⟨fun _ => ⟨_, e, rfl, ?target, ?pushed, ?kept, unchanged_stack_pc s _ _ _⟩, fun h => absurd h hroom.ne⟩
    case target =>
      rw [toNat_zext, pow_pcWidth]
      omega
    case pushed => exact Vector.getElem?_set_self hroom
    case kept => exact fun k hk => Vector.getElem?_set_ne hroom hk.symm

/-- Settles O23: the two cases of a RET; the pop moves the pointer and writes no entry (D31). -/
theorem returnPopsOrUnderflows : Obligations.ReturnPopsOrUnderflows := by
  intro s
  obtain ⟨hempty, e⟩ | ⟨hpos, e⟩ := exec_ret_cases s
  · exact ⟨fun h => absurd hempty h.ne', fun _ => ⟨_, e, rfl, rfl, unchanged_halt s _⟩⟩
  · exact ⟨fun _ => ⟨_, e, rfl, Vector.getElem?_eq_getElem _, rfl, unchanged_stack_pc s _ _ _⟩,
      fun h => absurd h hpos.ne'⟩

/-- Settles O27: the RET reads the entry the CALL wrote, which is the pc before the call, and both leave the other entries. -/
theorem returnUndoesCall : Obligations.ReturnUndoesCall := by
  intro nnn s hroom
  obtain ⟨t, hcall, htsp, -, hpushed, hkept, hst⟩ := (callPushesOrOverflows nnn s).1 hroom
  obtain ⟨u, hret, husp, hpopped, hustack, htu⟩ :=
    (returnPopsOrUnderflows t.advance).1 (by rw [State.advance_sp, htsp]; omega)
  rw [State.advance_sp, htsp, Nat.add_sub_cancel] at husp hpopped
  rw [State.advance_stack] at hpopped hustack
  have hpc : u.pc = s.pc := Option.some.inj (hpopped.symm.trans hpushed)
  refine ⟨t, u, hcall, hret, hpc, Fin.ext husp, fun k hk => hustack ▸ hkept k hk, ?_⟩
  exact ((hst.trans (unchanged_advance t)).trans htu).of_restored (by simp [Part.Same, hpc])

/-! ## Nested CALLs -/

section RunCalls

variable {s t : State} {nnn : Addr12}

theorem runCalls_cons (h : exec (.call nnn) s.advance = .next t) (rest : List Addr12) :
    runCalls (nnn :: rest) s = runCalls rest t := by
  simp only [runCalls, h]

/-- CALLs executed after others act on the state those left. -/
theorem runCalls_append {targets : List Addr12} (h : runCalls targets s = .next t) (rest : List Addr12) :
    runCalls (targets ++ rest) s = runCalls rest t := by
  induction targets generalizing s with
  | nil =>
    obtain rfl := Host.Outcome.next.inj h
    rfl
  | cons nnn targets ih =>
    obtain ⟨u, hu⟩ := everyInstructionAnswersANextState (.call nnn) s.advance
    rw [runCalls_cons hu] at h
    rw [List.cons_append, runCalls_cons hu, ih h]

/-- As many CALLs as the stack has room for all succeed, each pushing one entry. -/
theorem runCalls_of_room (targets : List Addr12) (s : State) (hroom : s.sp.val + targets.length ≤ 12) :
    ∃ t, runCalls targets s = .next t ∧ t.sp.val = s.sp.val + targets.length ∧ t.runState = s.runState := by
  induction targets generalizing s with
  | nil => exact ⟨s, rfl, rfl, rfl⟩
  | cons nnn targets ih =>
    rw [List.length_cons] at hroom ⊢
    obtain ⟨u, hu, husp, -, -, -, -, huparts⟩ :=
      (callPushesOrOverflows nnn s.advance).1 (by rw [State.advance_sp]; omega)
    rw [State.advance_sp] at husp
    obtain ⟨hurun, -⟩ := huparts .run (by decide)
    obtain ⟨t, ht, htsp, htrun⟩ := ih u (by omega)
    exact ⟨t, (runCalls_cons hu targets).trans ht, by omega, htrun.trans hurun⟩

end RunCalls

/-- Settles O28: twelve CALLs fill the stack, and one more is a CALL on a full one. -/
theorem thirteenthNestedCallOverflows : Obligations.ThirteenthNestedCallOverflows := by
  intro targets last s hlen hsp
  obtain ⟨t, ht, htsp, htrun⟩ := runCalls_of_room targets s (by omega)
  have hfull : t.sp.val = 12 := by omega
  obtain ⟨u, hu, hhalted, hreason, htu⟩ := (callPushesOrOverflows last t.advance).2 hfull
  refine ⟨t, u, ht, hfull, htrun, ?_, hhalted, hreason, htu.2 .pc (by decide), ?_⟩
  · rw [runCalls_append ht, runCalls_cons hu]
    rfl
  · exact ((unchanged_advance t).trans htu).of_restored (by simp)

end Sys2Proof.Machine

/-! # Proofs: the ALU and register instructions (41_alu.md) -/

namespace Sys2Proof.Machine

/-! ## The result and the flag of a flag writer (R120, D11) -/

theorem setV_V_same (s : State) (x : Reg) (b : VReg) : (s.setV x b).V x = b := by simp

/-- The flag is written last, so VF holds it also where VF is the result's register. -/
theorem setResultFlag_V_vf (s : State) (x : Reg) (b : VReg) (c : Bool) : (s.setResultFlag x b c).V .vf = flagByte c := by
  simp

/-- Any other register keeps the result. -/
theorem setResultFlag_V_result (s : State) {x : Reg} (hx : x ≠ .vf) (b : VReg) (c : Bool) :
    (s.setResultFlag x b c).V x = b := by
  simp [hx]

theorem flagByte_decide (p : Prop) [Decidable p] : flagByte (decide p) = if p then 1#8 else 0#8 := by
  simp [flagByte]

theorem toNat_flagByte (c : Bool) : (flagByte c).toNat = c.toNat := by cases c <;> rfl

/-! ## The operations on bytes, as arithmetic -/

section Bytes

variable (a b : VReg)

theorem flagByte_carryOf : flagByte (carryOf a b) = if a.toNat + b.toNat > 255 then 1#8 else 0#8 := flagByte_decide _

theorem flagByte_noBorrow : flagByte (noBorrow a b) = if a.toNat ≥ b.toNat then 1#8 else 0#8 := flagByte_decide _

theorem toNat_flagByte_shiftedOutRight : (flagByte (shiftedOutRight a)).toNat = a.toNat % 2 := by
  rw [toNat_flagByte, shiftedOutRight, BitVec.getLsbD, Nat.toNat_testBit, pow_zero, Nat.div_one]

/-- The top bit of a byte is its quotient by 128, which leaves nothing above it. -/
theorem toNat_flagByte_shiftedOutLeft : (flagByte (shiftedOutLeft a)).toNat = a.toNat / 128 := by
  have ha : a.toNat < 256 := a.isLt
  rw [toNat_flagByte, shiftedOutLeft, BitVec.getLsbD, Nat.toNat_testBit]
  simp only [Config.vWidth]
  omega

/-- The difference of two bytes is the exact difference modulo 256, a negative one included. -/
theorem toNat_sub_eq_emod : ((a - b).toNat : Int) = ((a.toNat : Int) - b.toNat) % 256 := by
  have hb : b.toNat < 256 := b.isLt
  rw [BitVec.toNat_sub, pow_vWidth]
  omega

theorem toNat_ushiftRight_one : (a >>> 1).toNat = a.toNat / 2 := by
  rw [BitVec.toNat_ushiftRight, Nat.shiftRight_one]

theorem toNat_shiftLeft_one : (a <<< 1).toNat = 2 * a.toNat % 256 := by
  rw [BitVec.toNat_shiftLeft, Nat.shiftLeft_eq, pow_one, Nat.mul_comm, pow_vWidth]

end Bytes

/-! ## The flag writers -/

/-- Settles O19: the carry is computed from the operands as they were, and written after the sum. -/
theorem addWritesSumThenCarry : Obligations.AddWritesSumThenCarry := by
  intro x y s
  refine ⟨_, rfl, fun hx => ?sum, ?carry, unchanged_setResultFlag s x _ _⟩
  case sum => rw [setResultFlag_V_result s hx, BitVec.toNat_add, pow_vWidth]
  case carry => rw [setResultFlag_V_vf, flagByte_carryOf]

/-- What a flag writer leaves whose result is the difference of the bytes `a` and `b` (R128, R130). -/
theorem setResultFlag_difference (s : State) (x : Reg) (a b : VReg) {t : State}
    (ht : t = s.setResultFlag x (a - b) (noBorrow a b)) :
    (x ≠ .vf → ((t.V x).toNat : Int) = (a.toNat - b.toNat : Int) % 256) ∧
      t.V .vf = (if a.toNat ≥ b.toNat then 1#8 else 0#8) ∧ Unchanged [x, .vf] [] s t := by
  subst ht
  refine ⟨fun hx => ?difference, ?noBorrow, unchanged_setResultFlag s x _ _⟩
  case difference => rw [setResultFlag_V_result s hx, toNat_sub_eq_emod]
  case noBorrow => rw [setResultFlag_V_vf, flagByte_noBorrow]

/-- Settles O20: 8XY5 and 8XY7 are the one subtraction with its operands in either order. -/
theorem subtractWritesDifferenceThenNoBorrow : Obligations.SubtractWritesDifferenceThenNoBorrow := fun x y s =>
  ⟨⟨_, rfl, setResultFlag_difference s x (s.V x) (s.V y) rfl⟩,
    ⟨_, rfl, setResultFlag_difference s x (s.V y) (s.V x) rfl⟩⟩

/-- Settles O21: halving and doubling, with the lowest and the highest bit of the old value in VF; neither meaning names Y. -/
theorem shiftsWriteResultThenBitShiftedOut : Obligations.ShiftsWriteResultThenBitShiftedOut := by
  intro x y s
  refine ⟨⟨_, rfl, fun hx => ?half, ?lowBit, unchanged_setResultFlag s x _ _, fun _ => rfl⟩,
    ⟨_, rfl, fun hx => ?double, ?highBit, unchanged_setResultFlag s x _ _, fun _ => rfl⟩⟩
  case half => rw [setResultFlag_V_result s hx, toNat_ushiftRight_one]
  case lowBit => rw [setResultFlag_V_vf, toNat_flagByte_shiftedOutRight]
  case double => rw [setResultFlag_V_result s hx, toNat_shiftLeft_one]
  case highBit => rw [setResultFlag_V_vf, toNat_flagByte_shiftedOutLeft]

/-! ## The instructions that write VX alone -/

/-- Settles O15: NN has the register's width, so that the load keeps every bit of it. -/
theorem loadImmediateWritesTheByte : Obligations.LoadImmediateWritesTheByte := fun x nn s =>
  ⟨_, rfl, by rw [setV_V_same, zext_self], unchanged_setV s x _⟩

/-- Settles O16: the addition of the register's width is the one modulo 256. -/
theorem addImmediateWrapsWithoutFlag : Obligations.AddImmediateWrapsWithoutFlag := fun x nn s =>
  ⟨_, rfl, by rw [setV_V_same, zext_self, BitVec.toNat_add, pow_vWidth], unchanged_setV s x _⟩

/-- Settles O17: the value is read before the write, which for X = Y then writes back what was there. -/
theorem copyWritesTheOtherRegister : Obligations.CopyWritesTheOtherRegister := fun x y s =>
  ⟨_, rfl, setV_V_same s x (s.V y), unchanged_setV s x _⟩

/-- Settles O18: each of the three is a write of VX, and its result is read bit by bit. -/
theorem logicWritesTheBitwiseResult : Obligations.LogicWritesTheBitwiseResult := by
  intro x y s
  refine ⟨⟨_, rfl, fun k => ?or, unchanged_setV s x _⟩, ⟨_, rfl, fun k => ?and, unchanged_setV s x _⟩,
    ⟨_, rfl, fun k => ?xor, unchanged_setV s x _⟩⟩
  case or => rw [setV_V_same, BitVec.getLsbD_or]
  case and => rw [setV_V_same, BitVec.getLsbD_and]
  case xor => rw [setV_V_same, BitVec.getLsbD_xor]

/-- CXNN with any random byte: the masked byte in VX, and one byte taken. -/
theorem execRndOf_spec (b : Byte) (x : Reg) (nn : Byte) (s : State) :
    ∃ t, execRndOf b x nn s = .next t ∧ t.V x = nn &&& b ∧ t.draws = s.draws + 1 ∧ Unchanged [x] [.draws] s t :=
  ⟨_, rfl, by rw [State.countDraw_V, setV_V_same, zext_self], rfl, (unchanged_setV s x _).trans (unchanged_countDraw _)⟩

/-- Settles O22: the instruction is `execRndOf` at the next byte of the random input. -/
theorem randomIsMaskedByTheImmediate : Obligations.RandomIsMaskedByTheImmediate := by
  intro x nn s
  refine ⟨execRndOf_spec (Config.rndIn s.draws) x nn s, fun b => ?_⟩
  obtain ⟨t, ht, hV, -, hst⟩ := execRndOf_spec b x nn s
  exact ⟨t, ht, hV, hst⟩

end Sys2Proof.Machine

/-! # Proofs: the address register and memory instructions (42_index_memory.md) -/

namespace Sys2Proof.Machine

/-! ## What a block store at I leaves in memory (R58, R60) -/

/-- A byte in none of the block's cells reads as before. -/
theorem storeFrom_zero_byteAt_other (base : IReg) (bs : List Byte) (s : State) {a : Word}
    (ha : ∀ k, k < bs.length → cellIndex (effAddr base k) ≠ cellIndex a) :
    (storeFrom base 0 bs s).byteAt a = s.byteAt a :=
  storeFrom_byteAt_other base 0 bs s a fun k hk => (Nat.zero_add k).symm ▸ ha k hk

/-- The digit at place `k` of a byte is a byte itself, so that none is cut in the store (R153). -/
theorem toNat_getElem_bcdDigits (b : VReg) {k : Nat} (hk : k < 3) :
    (bcdDigits b)[k].toNat = [b.toNat / 100, b.toNat / 10 % 10, b.toNat % 10][k] := by
  have hb : b.toNat < 256 := b.isLt
  match k, hk with
  | 0, _ | 1, _ | 2, _ => exact Nat.mod_eq_of_lt (by omega)

/-- The byte FX33 stores at I plus `k` is the decimal digit at place `k`, the hundreds first. -/
theorem toNat_storeFrom_bcdDigits_byteAt {s : State} (hs : s.mem.wf = true) (base : IReg) (b : VReg) {k : Nat} (hk : k < 3) :
    ((storeFrom base 0 (bcdDigits b) s).byteAt (effAddr base k)).toNat =
      [b.toNat / 100, b.toNat / 10 % 10, b.toNat % 10][k] := by
  have hbyte := storeFrom_byteAt base 0 (bcdDigits b) hs k hk (by decide : 0 + 3 ≤ Config.memSize)
  rw [Nat.zero_add] at hbyte
  rw [hbyte, toNat_getElem_bcdDigits b hk]

/-! ## The instructions that reach memory -/

/-- Settles O32: the three digits are a block of three bytes stored at I. -/
theorem bcdStoresThreeDigits : Obligations.BcdStoresThreeDigits := fun x s =>
  ⟨_, exec_ldB x s,
    fun hs => ⟨toNat_storeFrom_bcdDigits_byteAt hs s.I (s.V x) (k := 0) (by decide),
      toNat_storeFrom_bcdDigits_byteAt hs s.I (s.V x) (k := 1) (by decide),
      toNat_storeFrom_bcdDigits_byteAt hs s.I (s.V x) (k := 2) (by decide)⟩,
    fun _ => storeFrom_zero_byteAt_other s.I (bcdDigits (s.V x)) s, unchanged_storeFrom s s.I 0 _⟩

/-- Settles O33: the registers V0 to VX are a block of X + 1 bytes stored at I, the byte at place `k` from register `k`. -/
theorem storeBlockWritesTheRegisters : Obligations.StoreBlockWritesTheRegisters := by
  intro x s
  refine ⟨_, exec_ldMemVx x s, fun hs r hr => ?stored, fun a ha => ?others, unchanged_storeFrom s s.I 0 _⟩
  case stored => rw [storeFrom_regs_byteAt hs s.I x hr, BitVec.ofNat_toNat, BitVec.setWidth_eq]
  case others =>
    refine storeFrom_zero_byteAt_other s.I _ s fun k hk => ha k ?_
    rw [List.length_map, length_regsUpTo] at hk
    exact Nat.le_of_lt_succ hk

/-- Settles O34: `regsUpTo` lists the registers up to VX, and a load writes those it lists. -/
theorem loadBlockReadsTheRegisters : Obligations.LoadBlockReadsTheRegisters := by
  intro x s
  refine ⟨_, exec_ldVxMem x s, fun r hr => ?loaded, fun r hr => ?above, unchanged_loadRegs s (regsUpTo x)⟩
  case loaded => rw [loadRegs_V, if_pos ((mem_regsUpTo x r).2 hr)]
  case above => rw [loadRegs_V, if_neg (mt (mem_regsUpTo x r).1 hr.not_ge)]

/-- Settles O35: the load reads each register's byte at the address where the store put it. -/
theorem storedRegistersLoadBack : Obligations.StoredRegistersLoadBack := by
  intro x s u hs
  obtain ⟨t, ht, hstored, -⟩ := storeBlockWritesTheRegisters x s
  refine ⟨t, ht, fun hmem hI => ?_⟩
  obtain ⟨v, hv, hloaded, -⟩ := loadBlockReadsTheRegisters x u
  refine ⟨v, hv, fun r hr => ?_⟩
  calc v.V r = u.byteAt (effAddr u.I r.toNat) := hloaded r hr
    _ = t.byteAt (effAddr s.I r.toNat) := by rw [State.byteAt, hmem, hI, State.byteAt]
    _ = s.V r := hstored hs r hr

/-! ## The instructions that write I alone -/

/-- Settles O29: the 12 bits of NNN fit the 16 of I. -/
theorem loadIndexSetsTheAddress : Obligations.LoadIndexSetsTheAddress := by
  intro nnn s
  have hnnn : nnn.toNat < 4096 := nnn.isLt
  refine ⟨_, rfl, ?_, unchanged_setI s _⟩
  rw [State.setI_I, toNat_zext, pow_iWidth]
  omega

/-- Settles O30: VX extended to I's width keeps its value, and the addition of that width is the one modulo 2^16. -/
theorem addIndexWrapsAtSixteenBits : Obligations.AddIndexWrapsAtSixteenBits := by
  intro x s
  refine ⟨_, rfl, ?_, unchanged_setI s _⟩
  rw [State.setI_I, BitVec.toNat_add, toNat_zext, pow_iWidth, Nat.add_mod_mod]

/-- Settles O31: five times a byte is at most 1275, which I holds without a wrap. -/
theorem glyphAddressIsFiveTimesTheDigit : Obligations.GlyphAddressIsFiveTimesTheDigit := by
  intro x s
  have hV := s.V_lt x
  refine ⟨_, rfl, ?_, unchanged_setI s _⟩
  rw [State.setI_I, glyphAddr, BitVec.toNat_ofNat, pow_iWidth, Config.fontGlyphBytes]
  omega

end Sys2Proof.Machine

/-! # Proofs: the display instructions (43_display.md) -/

namespace Sys2Proof.Machine

/-! ## The clear (R171) -/

/-- Settles O37: the cleared display is off at every cell, and the write of the display changes nothing else. -/
theorem clearSetsEveryCellOff : Obligations.ClearSetsEveryCellOff := fun s =>
  ⟨_, rfl, fun x y _ _ => Display.cell_clear x y, unchanged_setDisp s Display.clear⟩

/-! ## The draw (R172 to R176) -/

/-- The two values of the flag are told apart. -/
theorem flagByte_eq_one_iff (c : Bool) : flagByte c = 1#8 ↔ c = true := by cases c <;> decide

/-- DXYN inverts the cells under the sprite's pixels, and VF tells whether one of them was on (R173, R175). -/
theorem exec_drw_spec (x y : Reg) (n : Nibble) (s : State) : ∃ t c, exec (.drw x y n) s = .next t ∧
    (∀ px py, t.disp.cell px py = (s.disp.cell px py ^^ drawnPixel x y n s px py)) ∧ t.V .vf = flagByte c ∧
    (c = true ↔ ∃ px py, drawnPixel x y n s px py = true ∧ s.disp.cell px py = true) ∧ Unchanged [.vf] [.disp] s t := by
  obtain ⟨hcells, hcollision⟩ := blitRows_spec (anchorX (s.V x)) (anchorY (s.V y))
    ((blockAddrs s.I n.toNat).map s.byteAt) (s.disp, false)
  refine ⟨_, _, exec_drw x y n s, hcells, setV_V_same _ .vf _, ?_,
    (unchanged_setDisp s _).trans (unchanged_setV _ .vf _)⟩
  rw [hcollision, Bool.false_eq_true, false_or]
  rfl

/-- A sprite of no rows has no pixel (R176). -/
theorem drawnPixel_zero (x y : Reg) (s : State) (px py : Nat) : drawnPixel x y 0#4 s px py = false := by
  simp [drawnPixel, spritePixel, blockAddrs]

/-- The sprite depends on the two coordinate registers, on I and on memory alone. -/
theorem drawnPixel_of_unchanged {rs : List Reg} {ps : List Part} {s t : State} (h : Unchanged rs ps s t) {x y : Reg}
    (hx : x ∉ rs) (hy : y ∉ rs) (hI : Part.index ∉ ps) (hmem : Part.mem ∉ ps) (n : Nibble) :
    drawnPixel x y n t = drawnPixel x y n s := by
  have hindex : t.I = s.I := h.2 .index hI
  have hbytes : (t.byteAt : IReg → Byte) = s.byteAt := funext (h.2 .mem hmem)
  funext px py
  rw [drawnPixel, drawnPixel, h.1 x hx, h.1 y hy, hindex, hbytes]

/-- Settles O38: what a draw leaves, with VF read off the collision; a sprite of no rows inverts no cell and meets none. -/
theorem drawInvertsThePixelsAndFlagsCollision : Obligations.DrawInvertsThePixelsAndFlagsCollision := by
  intro x y n s
  obtain ⟨t, c, ht, hcells, hV, hc, hst⟩ := exec_drw_spec x y n s
  have hfree : (¬ ∃ px py, drawnPixel x y n s px py = true ∧ s.disp.cell px py = true) → t.V .vf = 0#8 := by
    intro h
    rw [hV, Bool.eq_false_of_not_eq_true (mt hc.1 h)]
    rfl
  refine ⟨t, ht, hcells, fun h => hV.trans ((flagByte_eq_one_iff c).2 (hc.2 h)), hfree, ?noRows, hst⟩
  case noRows =>
    rintro rfl
    simp only [drawnPixel_zero, Bool.xor_false] at hcells
    exact ⟨Display.ext_cell fun px py _ _ => hcells px py, hfree (by simp [drawnPixel_zero])⟩

/-- Settles O39: the second draw has the sprite of the first, for that wrote neither coordinate register, nor I, nor memory; so
it inverts the same cells again, and a pixel meets a cell that is on where the first draw met one that was off. -/
theorem drawingTwiceRestoresTheDisplay : Obligations.DrawingTwiceRestoresTheDisplay := by
  intro x y n s hx hy
  obtain ⟨t, -, ht, htcells, -, -, hst⟩ := exec_drw_spec x y n s
  obtain ⟨u, c, hu, hucells, hV, hc, -⟩ := exec_drw_spec x y n t.advance
  have hsprite : drawnPixel x y n t.advance = drawnPixel x y n s :=
    drawnPixel_of_unchanged (hst.trans (unchanged_advance t)) (by simpa using hx) (by simpa using hy)
      (by decide) (by decide) n
  simp only [State.advance_disp, hsprite, htcells] at hucells hc
  refine ⟨t, u, ht, hu, Display.ext_cell fun px py _ _ => ?restored, ?fresh⟩
  case restored => rw [hucells, Bool.xor_assoc, Bool.xor_self, Bool.xor_false]
  case fresh =>
    rw [hV, flagByte_eq_one_iff, hc]
    refine exists₂_congr fun px py => and_congr_right fun hpixel => ?_
    rw [hpixel, Bool.xor_true, Bool.not_eq_true']

end Sys2Proof.Machine

/-! # Proofs: the keypad and timer instructions (44_keypad_timers.md) -/

namespace Sys2Proof.Machine

/-! ## The keypad read by number (R31, R44) -/

/-- The key a register selects is read at the low nibble of its value (D18). -/
theorem getElem?_key_mod (s : State) (b : VReg) : s.key[b.toNat % 16]? = some (s.keyDown (keyOf b)) := by
  have hk : b.toNat % 16 = (keyOf b).toNat := (toNat_zext (n := 4) b).symm
  rw [hk]
  exact Vector.getElem?_eq_getElem (keyOf b).isLt

/-- A key's code is below 16, which a register holds as it is (R188). -/
theorem toNat_keyCode (k : KeyIx) : (keyCode k).toNat = k.toNat := by
  have hk : k.toNat < 16 := k.isLt
  rw [keyCode, toNat_zext, pow_vWidth]
  omega

/-- The search meets the keys by rising number. -/
theorem leastKeyDown_eq_map (s : State) : leastKeyDown s =
    ((List.range 16).find? fun i => s.keyDown (BitVec.ofNat 4 i)).map (BitVec.ofNat 4) :=
  List.find?_map

theorem leastKeyDown_eq_none {s : State} (hup : ∀ k, s.keyDown k = false) : leastKeyDown s = none := by
  simp [leastKeyDown, hup]

/-- A key that is down while every lower one is up is the one that the search finds. -/
theorem leastKeyDown_eq_some {s : State} {k : KeyIx} (hdown : s.keyDown k = true)
    (hlower : ∀ j : KeyIx, j.toNat < k.toNat → s.keyDown j = false) : leastKeyDown s = some k := by
  have hk : k.toNat < 16 := k.isLt
  have hfind : ((List.range 16).find? fun i => s.keyDown (BitVec.ofNat 4 i)) = some k.toNat := by
    refine List.find?_range_eq_some.2 ⟨by simpa using hdown, List.mem_range.2 hk, fun i hi => ?_⟩
    rw [hlower (BitVec.ofNat 4 i) (by rw [BitVec.toNat_ofNat]; omega)]
    rfl
  rw [leastKeyDown_eq_map, hfind, Option.map_some, BitVec.ofNat_toNat, BitVec.setWidth_eq]

/-! ## The key wait, row by row (R188, R191) -/

section KeyWait

variable {s : State} (x : Reg)

theorem exec_ldVxK_of_no_key (hw : s.kwState = .awaitingPress) (h : leastKeyDown s = none) :
    exec (.ldVxK x) s = .next s.rewind := by
  simp only [exec, execLdVxK, hw, h]

theorem exec_ldVxK_of_press {k : KeyIx} (hw : s.kwState = .awaitingPress) (h : leastKeyDown s = some k) :
    exec (.ldVxK x) s = .next ((s.setKwKey k).setKwState .awaitingRelease).rewind := by
  simp only [exec, execLdVxK, hw, h]

theorem exec_ldVxK_of_held (hw : s.kwState = .awaitingRelease) (h : s.keyDown s.kwKey = true) :
    exec (.ldVxK x) s = .next s.rewind := by
  simp only [exec, execLdVxK, hw, h, if_true]

theorem exec_ldVxK_of_release (hw : s.kwState = .awaitingRelease) (h : s.keyDown s.kwKey = false) :
    exec (.ldVxK x) s = .next ((s.setV x (keyCode s.kwKey)).setKwState .awaitingPress) := by
  simp only [exec, execLdVxK, hw, h, Bool.false_eq_true, if_false]

end KeyWait

/-- A capture writes the key wait, both its state and its key, and rewinds the pc. -/
theorem unchanged_capture (s : State) (k : KeyIx) :
    Unchanged [] [.pc, .keyWait] s ((s.setKwKey k).setKwState .awaitingRelease).rewind :=
  (((unchanged_setKwKey s k).trans (unchanged_setKwState _ _)).trans (unchanged_rewind _)).of_restored (by simp)

/-- Settles O41: one row of the machine each; a row that waits only rewinds, and the commit alone writes VX. -/
theorem keyWaitFollowsItsFourRows : Obligations.KeyWaitFollowsItsFourRows := by
  intro x s
  refine ⟨fun hw hup => ?noKey, fun k hw hdown hlower => ?capture, fun hw hheld => ?held, fun hw hup => ?commit⟩
  case noKey => exact ⟨_, exec_ldVxK_of_no_key x hw (leastKeyDown_eq_none hup), rfl, unchanged_rewind s⟩
  case capture =>
    exact ⟨_, exec_ldVxK_of_press x hw (leastKeyDown_eq_some hdown hlower), rfl, rfl, rfl, unchanged_capture s k⟩
  case held => exact ⟨_, exec_ldVxK_of_held x hw hheld, rfl, unchanged_rewind s⟩
  case commit =>
    refine ⟨_, exec_ldVxK_of_release x hw hup, ?code, rfl, rfl,
      (unchanged_setV s x _).trans (unchanged_setKwState _ _)⟩
    case code => rw [State.setKwState_V, setV_V_same, toNat_keyCode]

/-! ## The skips on a key (R185, R186) -/

/-- Settles O40: each is `skipIf` on the bit of the selected key, as it is or inverted. -/
theorem keySkipsReadTheSelectedKey : Obligations.KeySkipsReadTheSelectedKey := by
  intro x s
  refine ⟨⟨_, rfl, ?skp, unchanged_skipIf s _⟩, ⟨_, rfl, ?sknp, unchanged_skipIf s _⟩⟩
  case skp => simp only [toNat_skipIf_pc, getElem?_key_mod, Option.some.injEq]
  case sknp => simp only [toNat_skipIf_pc, getElem?_key_mod, Option.some.injEq, Bool.not_eq_true']

/-! ## The timers (R187, R189, R190) -/

/-- Settles O42: a timer has the register's width, so that the copy keeps every bit of it. -/
theorem readDelayTimerCopiesIt : Obligations.ReadDelayTimerCopiesIt := fun x s =>
  ⟨_, rfl, by rw [setV_V_same, zext_self], unchanged_setV s x _⟩

/-- Settles O43: the register has a timer's width, and the tone is read off the new sound timer (R222). -/
theorem setTimersStoreTheRegister : Obligations.SetTimersStoreTheRegister := by
  intro x s
  refine ⟨⟨_, rfl, ?delay, unchanged_setDt s _⟩, ⟨_, rfl, ?sound, ?tone, unchanged_setSt s _⟩⟩
  case delay => rw [State.setDt_dt, zext_self]
  case sound => rw [State.setSt_st, zext_self]
  case tone => rw [State.soundOn, decide_eq_true_iff, State.setSt_st, zext_self]

end Sys2Proof.Machine

/-! # Proofs: exceptions, run state, timers and input (60_exceptions.md) -/

namespace Sys2Proof.Machine

/-! ## What the driver's operations leave unchanged -/

section Driver

variable (s : State)

theorem unchanged_setPhase (ph : Phase) : Unchanged [] [.phase] s (s.setPhase ph) :=
  ⟨fun _ _ => rfl, fun p hp => by cases p <;> simp_all [Part.Same]⟩

theorem unchanged_setInputs (l : List FrameInput) : Unchanged [] [.inputs] s (s.setInputs l) :=
  ⟨fun _ _ => rfl, fun p hp => by cases p <;> simp_all [Part.Same]⟩

theorem unchanged_tick : Unchanged [] [.dt, .st] s s.tick :=
  (unchanged_setDt s _).trans (unchanged_setSt _ _)

theorem unchanged_stepStart (more : Nat) : Unchanged [] [.pc, .phase] s (s.stepStart more) :=
  (unchanged_advance s).trans (unchanged_setPhase s.advance (Phase.remaining more))

/-- The frame's key events (R225). -/
theorem unchanged_applyKeys (l : List KeyEvent) : Unchanged [] [.key] s (l.foldl State.applyKey s) := by
  rw [applyKeys_eq]
  exact ⟨fun _ _ => rfl, fun p hp => by cases p <;> simp_all [Part.Same, State.byteAt]⟩

theorem unchanged_applyReq (r : RunReq) : Unchanged [] [.run] s (s.applyReq r) := by
  rw [applyReq_eq]
  exact ⟨fun _ _ => rfl, fun p hp => by cases p <;> simp_all [Part.Same, State.byteAt]⟩

theorem unchanged_applyInput (f : FrameInput) : Unchanged [] [.key, .run] s (s.applyInput f) :=
  (unchanged_applyKeys s f.keys).trans (unchanged_applyReq _ f.req)

theorem unchanged_poll : Unchanged [] [.key, .run, .phase, .inputs] s s.poll :=
  (unchanged_applyInput s (nextInput s.inputs)).trans
    ((unchanged_setPhase _ (Phase.remaining stepsPerFrame)).trans (unchanged_setInputs _ s.inputs.tail))

end Driver

/-! ## Accesses under the policy `fault` (R58, R204) -/

section Fault

variable {w : Nat} {p : AddrPolicy} {as : List (BitVec w)} {s : State} {go go' : State → Result}

theorem outOfRange_fault (a : BitVec w) : outOfRange .fault a = true ↔ 4096 ≤ a.toNat := decide_eq_true_iff

theorem firstOutOfRange_block_of_first {base : IReg} {n k : Nat} (hk : k < n) (hout : 4096 ≤ (effAddr base k).toNat)
    (hin : ∀ j, j < k → (effAddr base j).toNat < 4096) :
    firstOutOfRange .fault (blockAddrs base n) = some (effAddr base k) := by
  refine List.find?_eq_some_iff_getElem.2 ⟨(outOfRange_fault _).2 hout, k, by simpa [blockAddrs] using hk, ?_, ?_⟩
  · simp [blockAddrs]
  · intro j hj
    simpa [blockAddrs, outOfRange] using hin j hj

theorem firstOutOfRange_block_of_in_range {base : IReg} {n : Nat} (hin : ∀ k, k < n → (effAddr base k).toNat < 4096) :
    firstOutOfRange .fault (blockAddrs base n) = none := by
  simpa [firstOutOfRange, blockAddrs, outOfRange] using hin

/-- The two addresses of a fetch, in access order (R72, R204). -/
theorem firstOutOfRange_fetch {pc : PcReg} (h : 4096 ≤ pc.toNat ∨ 4096 ≤ (pc + 1#16).toNat) :
    firstOutOfRange .fault [pc, pc + 1#16] = some (if 4096 ≤ pc.toNat then pc else pc + 1#16) := by
  by_cases hpc : 4096 ≤ pc.toNat
  · simp [firstOutOfRange, (outOfRange_fault pc).2 hpc, hpc]
  · have hnext := (outOfRange_fault _).2 (h.resolve_left hpc)
    simp [firstOutOfRange, outOfRange_fault, hpc, hnext]

/-- The guard halts the core at the first offending address, and nothing else changes (R201, R204). -/
theorem guarded_halts {a : BitVec w} (h : firstOutOfRange p as = some a) :
    ∃ t, s.guarded p as go = .next t ∧ t.runState = .halted ∧ t.haltReason = .addressRange a.toNat ∧
      Unchanged [] [.run] s t :=
  ⟨s.halt (.addressRange a.toNat), by simp [State.guarded, h], rfl, rfl, unchanged_halt s _⟩

theorem guarded_of_in_range (h : firstOutOfRange p as = none) : s.guarded p as go = go s := by
  simp [State.guarded, h]

theorem guarded_congr (h : go s = go' s) : s.guarded p as go = s.guarded p as go' := by
  simp [State.guarded, h]

/-- Under any policy an instruction is its meaning on this hardware behind the guard of its own accesses, which are none but for
the four that reach data memory (D16, D17). -/
theorem execUnder_eq_guarded (p : AddrPolicy) (i : Instr) (s : State) :
    execUnder p i s = s.guarded p (blockAddrs s.I (dataBytes i)) (exec i) := by
  cases i with
  | drw x y n => rw [execUnder, execDrwUnder]; exact guarded_congr (exec_drw x y n s).symm
  | ldB x => rw [execUnder, execLdBUnder]; exact guarded_congr (exec_ldB x s).symm
  | ldMemVx x => rw [execUnder, execLdMemVxUnder]; exact guarded_congr (exec_ldMemVx x s).symm
  | ldVxMem x => rw [execUnder, execLdVxMemUnder]; exact guarded_congr (exec_ldVxMem x s).symm
  | _ => rfl

end Fault

/-- Settles O13: an instruction under `fault` is its meaning behind the guard of its accesses, and the guard halts the core at the
first of them that is out of range or lets it go on. -/
theorem dataOutOfRangeHaltsUnderFault : Obligations.DataOutOfRangeHaltsUnderFault := by
  intro i s
  rw [execUnder_eq_guarded]
  exact ⟨fun k hk hout hin => guarded_halts (firstOutOfRange_block_of_first hk hout hin),
    fun hin => guarded_of_in_range (firstOutOfRange_block_of_in_range hin)⟩

/-- Settles O12: the guard of a STEP stands before the advance. -/
theorem fetchOutOfRangeHaltsUnderFault : Obligations.FetchOutOfRangeHaltsUnderFault := by
  intro s h
  rw [← apply_ite BitVec.toNat, instrStepUnder, instrStepWith]
  exact guarded_halts (firstOutOfRange_fetch h)

/-! ## The default row and its diagnostic (R206, R230) -/

section Unrecognized

variable {s : State}

/-- On this hardware no fetch halts the core (D3), so that a STEP's diagnostic depends on the fetched word only. -/
theorem diagOfStep_eq_some {d : Diag} :
    diagOfStepUnder addrPolicy s = some d ↔ decode s.fetch = .unrecognized d.ins ∧ d.pc = s.pc := by
  have hfetch : firstOutOfRange addrPolicy [s.pc, s.pc + 1#Config.pcWidth] = none := firstOutOfRange_wrap _
  unfold diagOfStepUnder
  rw [hfetch]
  obtain ⟨pc, ins⟩ := d
  cases decode s.fetch <;> simp [eq_comm, and_comm]

theorem diagOut_eq_some {d : Diag} :
    s.diagOut = some d ↔
      s.runState = .running ∧ (∃ more, s.phase = .instr more) ∧ diagOfStepUnder addrPolicy s = some d := by
  unfold State.diagOut
  split
  · next more hr hp => simp [hr, hp]
  · next hne => exact ⟨nofun, fun ⟨hr, ⟨more, hp⟩, _⟩ => (hne more hr hp).elim⟩

/-- The default row holds the word it is decoded from (R81). -/
theorem decode_eq_unrecognized_iff {w v : Word} : decode w = .unrecognized v ↔ isUnrecognizedWord w = true ∧ v = w := by
  obtain ⟨hlisted, hown, -⟩ := unrecognizedWordsAreTheListedOnes w
  constructor
  · intro h
    obtain rfl := hown v h
    exact ⟨hlisted.1 h, rfl⟩
  · rintro ⟨h, rfl⟩
    exact hlisted.2 h

end Unrecognized

/-- Settles O45: the event of a due STEP, read off what the fetched word decodes to. -/
theorem diagnosticMarksUnrecognizedSteps : Obligations.DiagnosticMarksUnrecognizedSteps := by
  intro s d
  rw [diagOut_eq_some, diagOfStep_eq_some, decode_eq_unrecognized_iff, and_assoc, and_comm (a := d.ins = s.fetch)]

/-- Settles O44: the meaning is the identity, so the STEP ends where its instruction begins, after the advance. -/
theorem unrecognizedWordIsANoOp : Obligations.UnrecognizedWordIsANoOp := by
  refine ⟨fun w s => ⟨s, rfl, Unchanged.refl s⟩,
    fun s more hr hp hw => ⟨s.stepStart more, ?step, ?pc, unchanged_stepStart s more⟩⟩
  case step =>
    rw [step_of_instr hr hp, decode_of_isUnrecognizedWord hw]
    rfl
  case pc => exact BitVec.toNat_add s.pc 2#16

/-! ## TICK (R220) -/

/-- Settles O50: each timer by its own count down. -/
theorem tickCountsBothTimersDown : Obligations.TickCountsBothTimersDown := fun s =>
  ⟨toNat_tickDown s.dt, toNat_tickDown s.st, unchanged_tick s⟩

/-! ## The run-state requests (R216, R219) -/

section Requests

variable {s : State}

theorem applyReq_of_halted (h : s.runState = .halted) (r : RunReq) : s.applyReq r = s := by
  simp [State.applyReq, h]

theorem applyReq_pause_of_running (h : s.runState = .running) : s.applyReq .pause = { s with runState := .paused } := by
  simp [State.applyReq, h]

theorem applyReq_pause_of_paused (h : s.runState = .paused) : s.applyReq .pause = s := by
  simp [State.applyReq, h]

theorem applyReq_resume_of_paused (h : s.runState = .paused) : s.applyReq .resume = { s with runState := .running } := by
  simp [State.applyReq, h]

theorem applyReq_resume_of_running (h : s.runState = .running) : s.applyReq .resume = s := by
  simp [State.applyReq, h]

theorem applyReq_quit (h : s.runState ≠ .halted) : s.applyReq .quit = s.halt .quit := by
  unfold State.applyReq
  cases hr : s.runState with
  | halted => exact absurd hr h
  | running | paused => rfl

/-- What a request does to the run state and its reason depends on these two only. -/
theorem applyReq_run_congr {t : State} (hr : t.runState = s.runState) (hh : t.haltReason = s.haltReason) (r : RunReq) :
    (t.applyReq r).runState = (s.applyReq r).runState ∧ (t.applyReq r).haltReason = (s.applyReq r).haltReason := by
  unfold State.applyReq
  rw [hr]
  split <;> simp_all

end Requests

/-- Settles O53: the equation of `applyReq` for each row of R216. -/
theorem runStateRequestsFollowTheTable : Obligations.RunStateRequestsFollowTheTable := by
  intro s r
  refine ⟨?pause, ?resume, ?quit, ?paused, ?running, fun h => applyReq_of_halted h r, ?none, unchanged_applyReq s r⟩
  case pause => rintro h rfl; simp [applyReq_pause_of_running h]
  case resume => rintro h rfl; simp [applyReq_resume_of_paused h]
  case quit => rintro h rfl; simp [applyReq_quit h]
  case paused => rintro h rfl; exact applyReq_pause_of_paused h
  case running => rintro h rfl; exact applyReq_resume_of_running h
  case none => rintro rfl; exact applyReq_none s

/-! ## The input poll (R225, R245, D27) -/

/-- After a list of key events a key is as its last event says, or as it was where it has none (R225). -/
theorem applyKeys_keyDown (l : List KeyEvent) (s : State) (k : KeyIx) :
    (l.foldl State.applyKey s).keyDown k =
      ((l.filter fun e => e.key == k).getLast?.map KeyEvent.down).getD (s.keyDown k) := by
  induction l generalizing s with
  | nil => rfl
  | cons e l ih =>
    rw [List.foldl_cons, ih, State.applyKey, State.setKey_keyDown]
    by_cases hk : e.key = k
    · rw [List.filter_cons_of_pos (by simpa using hk), List.getLast?_cons, if_pos hk.symm]
      cases (l.filter fun e => e.key == k).getLast? <;> rfl
    · rw [List.filter_cons_of_neg (by simpa using hk), if_neg (Ne.symm hk)]

theorem applyReq_keyDown (s : State) (r : RunReq) (k : KeyIx) : (s.applyReq r).keyDown k = s.keyDown k := by
  rw [applyReq_eq]
  rfl

/-- Key events do not change what the request after them does to the run state. -/
theorem applyInput_run (s : State) (f : FrameInput) :
    (s.applyInput f).runState = (s.applyReq f.req).runState ∧ (s.applyInput f).haltReason = (s.applyReq f.req).haltReason :=
  applyReq_run_congr (applyKeys_run f.keys s).1 (applyKeys_run f.keys s).2 f.req

section Transitions

variable {s : State}

theorem step_of_poll (hr : s.runState = .running) (hp : s.phase = .poll) : step s = .next s.poll := by
  simp [step, blockStep, hr, hp]

theorem step_of_tick (hr : s.runState = .running) (hp : s.phase = .tick) : step s = .next (s.tick.setPhase .poll) := by
  simp [step, blockStep, hr, hp]

theorem step_of_paused (hr : s.runState = .paused) : step s = .next s.poll := by
  simp [step, blockStep, hr]

theorem step_of_halted (hr : s.runState = .halted) :
    step s = if s.phase = Phase.remaining stepsPerFrame then .fault .halted else .next s.poll := by
  simp [step, blockStep, State.runOver, hr]

/-- The run is over exactly where the core is HALTED with no frame under way; from any other state the machine goes on (R245). -/
theorem step_eq_fault_or_next (s : State) :
    (s.runState = .halted ∧ s.phase = Phase.remaining stepsPerFrame ∧ step s = .fault .halted) ∨
    (¬ (s.runState = .halted ∧ s.phase = Phase.remaining stepsPerFrame) ∧ ∃ t, step s = .next t) := by
  cases hr : s.runState with
  | halted =>
    rw [step_of_halted hr]
    by_cases hp : s.phase = Phase.remaining stepsPerFrame
    · exact .inl ⟨rfl, hp, if_pos hp⟩
    · exact .inr ⟨fun h => hp h.2, _, if_neg hp⟩
  | paused => exact .inr ⟨by simp, _, step_of_paused hr⟩
  | running =>
    refine .inr ⟨by simp, ?_⟩
    cases hp : s.phase with
    | instr more =>
      rw [step_of_instr hr hp]
      exact everyInstructionAnswersANextState _ _
    | tick => exact ⟨_, step_of_tick hr hp⟩
    | poll => exact ⟨_, step_of_poll hr hp⟩

theorem applyInput_of_halted (h : s.runState = .halted) (f : FrameInput) :
    (s.applyInput f).runState = .halted ∧ (s.applyInput f).haltReason = s.haltReason := by
  simpa only [applyReq_of_halted h, h] using applyInput_run s f

/-- The poll of a HALTED machine leaves the run state and its reason alone as well (R219). -/
theorem unchanged_poll_of_halted (h : s.runState = .halted) : Unchanged [] [.key, .phase, .inputs] s s.poll := by
  obtain ⟨hrun, hreason⟩ := poll_halted h
  have hsame : Part.run.Same s s.poll := ⟨hrun.trans h.symm, hreason⟩
  exact (unchanged_poll s).of_restored (by simp [hsame])

end Transitions

/-- Settles O54: a poll is the next input applied; its keys by induction on the events, its request by the table of R216. -/
theorem pollAppliesKeyEventsInOrder : Obligations.PollAppliesKeyEventsInOrder := by
  refine ⟨fun s hr hp => ⟨s.poll, step_of_poll hr hp, rfl, rfl, rfl, rfl, rfl, unchanged_poll s⟩, fun s f => ?_⟩
  obtain ⟨hrun, hreason⟩ := applyInput_run s f
  refine ⟨fun k => ?_, hrun, hreason, unchanged_applyInput s f⟩
  rw [State.applyInput, applyReq_keyDown, applyKeys_keyDown]

/-- Settles O55: the transition of a PAUSED machine is the poll, whatever its place in the frame. -/
theorem pausedMachineOnlyPolls : Obligations.PausedMachineOnlyPolls := fun s hr =>
  ⟨s.poll, step_of_paused hr, rfl, rfl, rfl, rfl, unchanged_poll s⟩

/-- Settles O56: the fault is the one stop, for every instruction answers a next state; and neither a poll nor an input leaves
HALTED. -/
theorem haltedMachineIsStuck : Obligations.HaltedMachineIsStuck := by
  refine ⟨fun s => ?stuck, fun s r => ?refused, fun s hr hp => ?poll, fun s f hr => applyInput_of_halted hr f⟩
  case stuck =>
    obtain ⟨hr, hp, e⟩ | ⟨hn, t, e⟩ := step_eq_fault_or_next s
    · simp [hr, hp, e]
    · simp [hn, e]
  case refused =>
    obtain ⟨-, -, e⟩ | ⟨-, t, e⟩ := step_eq_fault_or_next s <;> simp [e]
  case poll =>
    have e : step s = .next s.poll := (step_of_halted hr).trans (if_neg hp)
    exact ⟨s.poll, e, rfl, rfl, rfl, unchanged_poll_of_halted hr⟩

end Sys2Proof.Machine

/-! # Proofs: reset, load and the frame (70_reset_and_hazards.md) -/

namespace Sys2Proof.Machine

/-! ## The image in memory (R242) -/

section Image

variable {a : Nat} {bs : List Byte} {m : Memory}

/-- An image that ends inside the address space keeps the canonical form. -/
theorem loadImage_wf (hm : m.wf = true) (hfit : a + bs.length ≤ Config.memSize) : (loadImage a bs m).wf = true := by
  induction bs generalizing a m with
  | nil => exact hm
  | cons b bs ih =>
    rw [List.length_cons] at hfit
    exact ih (Memory.wf_write b hm (by omega)) (by omega)

/-- Below the image a byte reads as before; from its first address on it is the image's byte, or as before past the image's end. -/
theorem loadImage_read (hm : m.wf = true) (hfit : a + bs.length ≤ Config.memSize) (k : Nat) :
    (loadImage a bs m).read k = if a ≤ k then (bs[k - a]?).getD (m.read k) else m.read k := by
  induction bs generalizing a m with
  | nil => simp [loadImage]
  | cons b bs ih =>
    rw [List.length_cons] at hfit
    rw [loadImage, ih (Memory.wf_write b hm (by omega)) (by omega), Memory.read_write hm]
    obtain hlt | rfl | hgt := Nat.lt_trichotomy k a
    · simp [show ¬ a ≤ k by omega, show ¬ a + 1 ≤ k by omega, hlt.ne]
    · simp
    · simp [show a ≤ k by omega, show a + 1 ≤ k by omega, hgt.ne', show k - a = k - (a + 1) + 1 by omega]

end Image

/-- Settles O58: the image is read back from memory that listed nothing, where past the font every byte is 0. -/
theorem constructLoadsTheImageOrRefuses : Obligations.ConstructLoadsTheImageOrRefuses := by
  refine fun image => ⟨fun hlen => ?_, fun hlen => if_pos hlen⟩
  have hfit : Config.progBase + image.length ≤ Config.memSize := by
    rw [Config.progBase, Config.memSize]
    omega
  refine ⟨_, if_neg (Nat.not_lt.2 hlen), rfl, loadImage_wf Memory.wf_nil hfit, fun a _ => ?_⟩
  rw [loadImage_read Memory.wf_nil hfit]
  refine if_ctx_congr Iff.rfl (fun ha => ?_) (fun _ => rfl)
  rw [Memory.read_nil, resetByte_of_le (by omega : 80 ≤ a)]

/-! ## The word placed where the next STEP fetches (log 11) -/

section PlaceWord

variable (s : State) (w : Word)

theorem placeWord_phase : ∃ more, (s.placeWord w).phase = .instr more := by
  unfold State.placeWord
  cases s.phase with
  | instr more => exact ⟨more, rfl⟩
  | tick | poll => exact ⟨0, rfl⟩

/-- The two bytes of a fetch lie in two cells, for the addresses wrap at a multiple of the memory's size. -/
theorem cellIndex_ne_next (pc : PcReg) : cellIndex pc ≠ cellIndex (pc + 1#Config.pcWidth) := by
  have hpc := pc.isLt
  simp only [cellIndex, Config.memSize, BitVec.toNat_add, BitVec.toNat_ofNat, pow_pcWidth] at hpc ⊢
  omega

variable {s}

/-- The placed word is the one fetched: the low byte's write leaves the high byte's cell alone. -/
theorem placeWord_fetch (hm : s.mem.wf = true) : (s.placeWord w).fetch = w := by
  have hhigh : (s.placeWord w).byteAt s.pc = highByte w :=
    calc (s.placeWord w).byteAt s.pc
      _ = (s.setByte s.pc (highByte w)).byteAt s.pc := State.setByte_byteAt_other _ _ (cellIndex_ne_next s.pc).symm
      _ = highByte w := (State.setByte_byteAt hm _ _ _).trans (if_pos rfl)
  have hlow : (s.placeWord w).byteAt (s.pc + 1#Config.pcWidth) = lowByte w :=
    (State.setByte_byteAt (State.setByte_wf s.pc (highByte w) hm) _ _ _).trans (if_pos rfl)
  calc (s.placeWord w).fetch
    _ = wordOfBytes (highByte w) (lowByte w) := congrArg₂ wordOfBytes hhigh hlow
    _ = w := wordOfBytes_bytes w

end PlaceWord

/-- Settles O11: the placed word makes a STEP due, which fetches it. -/
theorem placedWordIsTheNextInstruction : Obligations.PlacedWordIsTheNextInstruction := by
  intro s w hm hw
  obtain ⟨more, hp⟩ := placeWord_phase s (BitVec.ofNat 16 w)
  refine ⟨more, ?_⟩
  have hword : tableWord 16 w = BitVec.ofNat 16 w := congrArg (BitVec.ofNat 16) (Nat.mod_eq_of_lt hw)
  rw [State.withFetchWord, hword, step_of_instr rfl hp, placeWord_fetch _ hm]
  rfl

/-! ## The instructions do not see the place in the frame

R245's loop says nothing of the place in the frame, which is the model's own (log 1); a STEP of it is the due STEP's at any
place. -/

section Phase

variable {i : Instr} {s t : State} (ph : Phase)

theorem skipIf_setPhase (c : Bool) (s : State) : (s.setPhase ph).skipIf c = (s.skipIf c).setPhase ph := by
  cases c <;> rfl

theorem storeFrom_setPhase (base : IReg) (k : Nat) (bs : List Byte) (s : State) :
    storeFrom base k bs (s.setPhase ph) = (storeFrom base k bs s).setPhase ph := by
  induction bs generalizing k s with
  | nil => rfl
  | cons b bs ih => exact ih (k + 1) (s.setByte (effAddr base k) b)

theorem loadRegs_setPhase (rs : List Reg) (s : State) : loadRegs rs (s.setPhase ph) = (loadRegs rs s).setPhase ph := by
  induction rs generalizing s with
  | nil => rfl
  | cons r rs ih => exact ih (s.setV r (zext Config.vWidth (s.byteAt (effAddr s.I r.toNat))))

theorem pop_setPhase (s : State) : (s.setPhase ph).pop = s.pop.map (Prod.map id (·.setPhase ph)) := by
  unfold State.pop
  by_cases hsp : 0 < s.sp.val <;> simp [hsp, State.setPhase]

theorem push_setPhase (s : State) (ret : StackEntry) : (s.setPhase ph).push ret = (s.push ret).map (·.setPhase ph) := by
  unfold State.push
  by_cases hsp : s.sp.val < Config.stackDepth <;> simp [hsp, State.setPhase]

theorem exec_ret_setPhase (h : exec .ret s = .next t) : exec .ret (s.setPhase ph) = .next (t.setPhase ph) := by
  simp only [exec, execRet, pop_setPhase] at h ⊢
  cases hpop : s.pop with
  | none | some _ =>
    rw [hpop] at h
    obtain rfl := Host.Outcome.next.inj h
    rfl

theorem exec_call_setPhase {nnn : Addr12} (h : exec (.call nnn) s = .next t) :
    exec (.call nnn) (s.setPhase ph) = .next (t.setPhase ph) := by
  simp only [exec, execCall, State.setPhase_pc, push_setPhase] at h ⊢
  cases hpush : s.push (zext Config.stackEntryWidth s.pc) with
  | none | some _ =>
    rw [hpush] at h
    obtain rfl := Host.Outcome.next.inj h
    rfl

theorem exec_ldVxK_setPhase {x : Reg} (h : exec (.ldVxK x) s = .next t) :
    exec (.ldVxK x) (s.setPhase ph) = .next (t.setPhase ph) := by
  cases hw : s.kwState with
  | awaitingPress =>
    cases hk : leastKeyDown s with
    | none =>
      obtain rfl := exec_unique h (exec_ldVxK_of_no_key x hw hk)
      exact exec_ldVxK_of_no_key (s := s.setPhase ph) x hw hk
    | some k =>
      obtain rfl := exec_unique h (exec_ldVxK_of_press x hw hk)
      exact exec_ldVxK_of_press (s := s.setPhase ph) x hw hk
  | awaitingRelease =>
    cases hk : s.keyDown s.kwKey with
    | true =>
      obtain rfl := exec_unique h (exec_ldVxK_of_held x hw hk)
      exact exec_ldVxK_of_held (s := s.setPhase ph) x hw hk
    | false =>
      obtain rfl := exec_unique h (exec_ldVxK_of_release x hw hk)
      exact exec_ldVxK_of_release (s := s.setPhase ph) x hw hk

/-- An instruction reads no place in the frame and keeps the one it finds: on a state at another place it answers the same state
at that place. -/
theorem exec_setPhase (h : exec i s = .next t) : exec i (s.setPhase ph) = .next (t.setPhase ph) := by
  cases i with
  | ret => exact exec_ret_setPhase ph h
  | call _ => exact exec_call_setPhase ph h
  | ldVxK _ => exact exec_ldVxK_setPhase ph h
  | drw x y n =>
    obtain rfl := exec_unique h (exec_drw x y n s)
    exact exec_drw x y n (s.setPhase ph)
  | ldB x =>
    obtain rfl := exec_unique h (exec_ldB x s)
    exact (exec_ldB x (s.setPhase ph)).trans (congrArg _ (storeFrom_setPhase ph _ _ _ s))
  | ldMemVx x =>
    obtain rfl := exec_unique h (exec_ldMemVx x s)
    exact (exec_ldMemVx x (s.setPhase ph)).trans (congrArg _ (storeFrom_setPhase ph _ _ _ s))
  | ldVxMem x =>
    obtain rfl := exec_unique h (exec_ldVxMem x s)
    exact (exec_ldVxMem x (s.setPhase ph)).trans (congrArg _ (loadRegs_setPhase ph _ s))
  | seImm _ _ | sneImm _ _ | seReg _ _ | sneReg _ _ | skp _ | sknp _ =>
    obtain rfl := exec_unique h rfl
    exact congrArg Host.Outcome.next (skipIf_setPhase ph _ s)
  | _ =>
    obtain rfl := exec_unique h rfl
    rfl

end Phase

/-! ## R245's loop and the transitions -/

section Frame

variable {s t : State}

/-- A run makes its first transition and goes on from there. -/
theorem run_succ (h : step s = .next t) (k : Nat) : core.run (k + 1) s = core.run k t := by
  have hstep : core.step s = .next t := h
  simp only [Host.Core.run, hstep]

/-- A run goes on from where its first transitions end. -/
theorem run_add {m : Nat} (h : core.run m s = .next t) (k : Nat) : core.run (m + k) s = core.run k t := by
  induction m generalizing s with
  | zero =>
    obtain rfl := Host.Outcome.next.inj h
    rw [Nat.zero_add]
  | succ m ih =>
    obtain ⟨-, -, hs⟩ | ⟨-, u, hs⟩ := step_eq_fault_or_next s
    · have hstep : core.step s = .fault .halted := hs
      simp [Host.Core.run, hstep] at h
    · rw [Nat.succ_add, run_succ hs]
      exact ih ((run_succ hs m).symm.trans h)

theorem remaining_inj {n m : Nat} (h : Phase.remaining n = Phase.remaining m) : n = m := by
  cases m with
  | zero =>
    cases n with
    | zero => rfl
    | succ _ => nomatch h
  | succ _ => exact remaining_eq_instr h

/-- The loop of a core that does not run makes no further step. -/
theorem frameLoop_of_not_running (h : s.runState ≠ .running) (n : Nat) : frameLoop n s = .next s := by
  induction n with
  | zero => rfl
  | succ n ih => rw [frameLoop, if_neg h, ih]

/-- The due STEP is R245's STEP, with the place in the frame counted down. -/
theorem step_of_instrStep (hr : s.runState = .running) (h : instrStep s = .next t) (n : Nat) :
    step (s.setPhase (Phase.remaining (n + 1))) = .next (t.setPhase (Phase.remaining n)) := by
  rw [instrStep_eq] at h
  rw [step_of_instr (s := s.setPhase (Phase.remaining (n + 1))) hr rfl]
  exact exec_setPhase (Phase.remaining n) h

/-- THE STEPS OF A FRAME. Where `n` STEPs are still to come, the transitions reach the state the loop ends in, up to the place in
the frame: after all `n` of them if the core still runs, or after the one that halts it. -/
theorem frameLoop_realized {n : Nat} (hr : s.runState = .running) (h : frameLoop n s = .next t) :
    ∃ k m, k + m = n ∧ core.run k (s.setPhase (Phase.remaining n)) = .next (t.setPhase (Phase.remaining m)) ∧
      (t.runState = .running ∧ m = 0 ∨ t.runState = .halted ∧ m < n) := by
  induction n generalizing s with
  | zero =>
    obtain rfl := Host.Outcome.next.inj h
    exact ⟨0, 0, rfl, rfl, .inl ⟨hr, rfl⟩⟩
  | succ n ih =>
    obtain ⟨u, hu⟩ : ∃ u, instrStep s = .next u := instrStep_eq s ▸ everyInstructionAnswersANextState _ _
    have hloop : frameLoop n u = .next t := by simpa [frameLoop, hr, hu] using h
    have hfirst := run_succ (step_of_instrStep hr hu n)
    cases hru : u.runState with
    | running =>
      obtain ⟨k, m, rfl, hrun, hend⟩ := ih hru hloop
      refine ⟨k + 1, m, by omega, (hfirst k).trans hrun, ?_⟩
      exact hend.imp_right fun ⟨hh, hm⟩ => ⟨hh, by omega⟩
    | halted =>
      rw [frameLoop_of_not_running (by simp [hru])] at hloop
      obtain rfl := Host.Outcome.next.inj hloop
      exact ⟨1, n, by omega, hfirst 0, .inr ⟨hru, by omega⟩⟩
    | paused => exact absurd hru (exec_ne_paused ((instrStep_eq s).symm.trans hu) hr)

/-- The end of a frame whose steps leave the core running: the tick, then the poll. -/
theorem run_tick_poll (hr : s.runState = .running) : core.run 2 (s.setPhase .tick) = .next s.tick.poll := by
  have htick : step (s.setPhase .tick) = .next ((s.tick.setPhase .tick).setPhase .poll) := step_of_tick hr rfl
  have hpoll : step ((s.tick.setPhase .tick).setPhase .poll) = .next s.tick.poll := by
    rw [step_of_poll (s := (s.tick.setPhase .tick).setPhase .poll) hr rfl, poll_setPhase, poll_setPhase]
  exact (run_succ htick 1).trans (run_succ hpoll 0)

/-- The end of a frame in which a step has halted the core: the poll, wherever in the frame it stands. -/
theorem step_halted_poll (hr : s.runState = .halted) {ph : Phase} (hp : ph ≠ Phase.remaining stepsPerFrame) :
    step (s.setPhase ph) = .next s.poll := by
  have hstep : step (s.setPhase ph) = .next (s.setPhase ph).poll := (step_of_halted (s := s.setPhase ph) hr).trans (if_neg hp)
  rw [hstep, poll_setPhase]

/-- After the poll of a HALTED core the run is over (R219, R245). -/
theorem step_poll_of_halted (hr : s.runState = .halted) : step s.poll = .fault .halted := by
  rw [step_of_halted (poll_halted hr).1]
  exact if_pos rfl

end Frame

/-- Settles O57: the steps by `frameLoop_realized`; then the tick and the poll, or the poll alone. -/
theorem transitionsRealizeTheFrameContract : Obligations.TransitionsRealizeTheFrameContract := by
  intro s t hr hp hloop
  have hstart : s.setPhase (Phase.remaining stepsPerFrame) = s := hp ▸ rfl
  obtain ⟨k, m, hk, hrun, hend⟩ := frameLoop_realized hr hloop
  rw [hstart] at hrun
  obtain ⟨hrt, rfl⟩ | ⟨hrt, hm⟩ := hend
  · refine ⟨fun _ => ?_, fun hn => absurd hrt hn⟩
    have hframe : frame s = .next t.tick.poll := by simp [frame, hloop, hrt]
    have hsteps : core.run (stepsPerFrame + 2) s = core.run 2 (t.setPhase .tick) := hk ▸ run_add hrun 2
    exact (hsteps.trans (run_tick_poll hrt)).trans hframe.symm
  · refine ⟨fun hn => (nomatch hrt.symm.trans hn), fun _ => ?_⟩
    have hplace : Phase.remaining m ≠ Phase.remaining stepsPerFrame := fun e => hm.ne (remaining_inj e)
    refine ⟨k, t.setPhase (Phase.remaining m), t.poll, by omega, hrun, hrt, rfl, ?_, ?_, step_poll_of_halted hrt⟩
    · exact (run_add hrun 1).trans (run_succ (step_halted_poll hrt hplace) 0)
    · simp [frame, hloop, hrt]

end Sys2Proof.Machine
